-- ==== Sys2Proof/Word.lean ====
section
/-! DEFINITION. The word type of the SN/X core (rule R6). -/

namespace Sys2Proof

/-- R6: a Word is a 16-bit quantity, held in its unsigned stored form. -/
abbrev Word := BitVec 16

end Sys2Proof
end

