-- ==== Sys2Proof/Machine/WordOps.lean ====
section
/-! DEFINITION. The word functions (R7 to R9) and the bit-field notation of the spec's section 5. -/

namespace Sys2Proof

/-- R7: `toWord(v) = v mod 65536`, the non-negative remainder, of any integer. -/
def toWord (v : Int) : Word := BitVec.ofNat 16 (v % 65536).toNat

/-- The unsigned reading of a word, an integer in 0 to 65535 (R6). -/
def unsigned (w : Word) : Int := (w.toNat : Int)

/-- R8: the signed 16-bit reading of any integer. -/
def toSigned (v : Int) : Int :=
  if 32768 ≤ unsigned (toWord v) then unsigned (toWord v) - 65536 else unsigned (toWord v)

/-- R9: the top bit of the masked value. -/
def isNegative (v : Int) : Bool := decide (32768 ≤ unsigned (toWord v))

/-- Section 5 of `00_scope.md`: `W[hi:lo]`, the unsigned integer made of bits `hi` down to `lo`. -/
def slice (w : Word) (hi lo : Nat) : Nat := w.toNat / 2 ^ lo % 2 ^ (hi - lo + 1)

/-- R76: `sext_8` of an 8-bit field value. -/
def sext8 (v : Nat) : Int := if 128 ≤ v then (v : Int) - 256 else (v : Int)

end Sys2Proof
end

