-- ==== Sys2Proof/Syntax.lean ====
section
/-! DEFINITION. The instruction record (R60), the decoded instruction (R70) and the elements of
the instruction store (R33). -/

namespace Sys2Proof

/-- R61: the opcode vocabulary, exactly eight opcodes. -/
inductive Opcode where
  | lda | ld | st | add | slt | bz | bal | hlt
  deriving DecidableEq, Repr

/-- R70 `RegSel`: a register selector. `badReg` comes from the source form only (R63). -/
inductive RegSel where
  | idx (n : Nat)
  | badReg
  deriving DecidableEq, Repr

/-- R70 `AddrOp`: an address operand. `noMatch` comes from the source form only (R66). -/
inductive AddrOp where
  | regOff (off : Int) (b : Nat)
  | noMatch
  deriving DecidableEq, Repr

/-- R70 `BzTgt`: the target of `BZ`. `undefined` comes from the source form only (R67). -/
inductive BzTgt where
  | known (k : Int)
  | undefined (name : String)
  deriving DecidableEq, Repr

/-- R70 `BalTgt`: the target of `BAL`. `known` comes from the source form only (R68). -/
inductive BalTgt where
  | known (k : Int)
  | addr (a : AddrOp)
  deriving DecidableEq, Repr

/-- R70: the tag of an unrecognized opcode, its number (binary form) or its string (source form). -/
inductive OpTag where
  | number (n : Nat)
  | name (s : String)
  deriving DecidableEq, Repr

/-- R70 `DInstr`, one constructor per row of the opcode table. `SHORT` is no row of the table and
no instruction: it is a rejection of the decoder, `Decoded.short`. -/
inductive Instr where
  | lda (d : RegSel) (a : AddrOp)
  | ld (d : RegSel) (a : AddrOp)
  | st (r : RegSel) (a : AddrOp)
  | add (d a b : RegSel)
  | slt (d a b : RegSel)
  | bz (c : RegSel) (t : BzTgt)
  | bal (l : RegSel) (t : BalTgt)
  | hlt
  | unrecognized (tag : OpTag)
  deriving DecidableEq, Repr

/-- What decoding one element of the instruction store gives: an instruction, or R69's `SHORT`,
a record whose opcode is one of the eight but which has too few operands. -/
inductive Decoded where
  | instr (i : Instr)
  | short (op : Opcode) (count : Nat)
  deriving DecidableEq, Repr

/-- R60: the instruction record, the source form's stored instruction. -/
structure InstrRecord where
  opcode : String
  operands : List String
  raw : String
  deriving DecidableEq, Repr

/-- R33: one element of the instruction store, a 16-bit instruction word in the binary form (R73)
or an instruction record in the source form (R60). -/
inductive StoredInstr where
  | word (w : Word)
  | record (r : InstrRecord)
  deriving DecidableEq, Repr

/-- R35: the label table, a mapping from symbol name to instruction index. -/
abbrev LabelTable := List (String × Nat)

end Sys2Proof
end

