-- ==== Sys2Proof/Decode.lean ====
section
/-! DEFINITION. The decoder of the binary form (R73 to R80), its encoder (R81), and the decoder of
the source form (R61 to R71). Both decoders are total; the source form's rejects by name
(`Decoded.short`). -/

namespace Sys2Proof

/-! ### Binary form -/

/-- R77: the address operand of format I, `RegOff(sext_8(W[7:0]), W[9:8])`. -/
def wordAddr (w : Word) : AddrOp := .regOff (sext8 (slice w 7 0)) (slice w 9 8)

/-- R78: `Dec(W)`, total on all 65536 words. Bits that R74 marks ignored are not looked at (R80). -/
def decodeWord (w : Word) : Instr :=
  match slice w 15 12 with
  | 0 => .lda (.idx (slice w 11 10)) (wordAddr w)
  | 1 => .ld (.idx (slice w 11 10)) (wordAddr w)
  | 2 => .st (.idx (slice w 11 10)) (wordAddr w)
  | 3 => .add (.idx (slice w 11 10)) (.idx (slice w 9 8)) (.idx (slice w 7 6))
  | 4 => .slt (.idx (slice w 11 10)) (.idx (slice w 9 8)) (.idx (slice w 7 6))
  | 5 => .bz (.idx (slice w 11 10)) (.known (sext8 (slice w 7 0)))
  | 6 => .bal (.idx (slice w 11 10)) (.addr (wordAddr w))
  | 7 => .hlt
  | n => .unrecognized (.number n)

/-- The instruction the decoder reads from an instruction of `nbits` bits, numbered as the opcode
table numbers them. Every instruction is one 16-bit word (R73), so bits above `nbits` are 0, and
there is no instruction longer than 16 bits (log entry 16). -/
def decodeTableWord (nbits w : Nat) : Option Instr :=
  if nbits ≤ 16 then some (decodeWord (BitVec.ofNat 16 (w % 2 ^ nbits))) else none

/-- A register field of 2 bits (R74, R81): defined for `Idx(n)` with `n <= 3`. -/
def encReg : RegSel → Option Nat
  | .idx n => if n ≤ 3 then some n else none
  | .badReg => none

/-- `imm8 = toWord(value)[7:0]` (R81), defined for values in -128 to 127. -/
def encImm (v : Int) : Option Nat :=
  if -128 ≤ v ∧ v ≤ 127 then some (slice (toWord v) 7 0) else none

/-- A word with opcode `op` in bits 15:12 and the fields `r` in 11:10, `b` in 9:8 and `low` in 7:0
(R74). -/
def packWord (op r b low : Nat) : Word := BitVec.ofNat 16 (op * 4096 + r * 1024 + b * 256 + low)

/-- Format I (R74): register, base and 8-bit offset. -/
def encI (op : Nat) (r : RegSel) : AddrOp → Option Word
  | .regOff off b =>
    match encReg r, encReg (.idx b), encImm off with
    | some r, some b, some imm => some (packWord op r b imm)
    | _, _, _ => none
  | .noMatch => none

/-- Format R (R74): three registers, bits 5:0 written as 0. -/
def encR (op : Nat) (d a b : RegSel) : Option Word :=
  match encReg d, encReg a, encReg b with
  | some d, some a, some b => some (packWord op d a (b * 64))
  | _, _, _ => none

/-- Format B (R74): register and 8-bit target, bits 9:8 written as 0. -/
def encB (op : Nat) (c : RegSel) : BzTgt → Option Word
  | .known k =>
    match encReg c, encImm k with
    | some c, some imm => some (packWord op c 0 imm)
    | _, _ => none
  | .undefined _ => none

/-- R81: `Enc`, defined exactly on the decoded instructions that have a binary form; ignored bits
are 0 (R80). `BAL l, Known(k)` with `0 <= k <= 127` is encoded as `Addr(RegOff(k, 0))`. For
`UNRECOGNIZED(number)` bits 11:0 are written as 0, DESIGN CHOICE (log entry 23): R77 has no row for it
and R74 no format. -/
def encode : Instr → Option Word
  | .lda d a => encI 0 d a
  | .ld d a => encI 1 d a
  | .st r a => encI 2 r a
  | .add d a b => encR 3 d a b
  | .slt d a b => encR 4 d a b
  | .bz c t => encB 5 c t
  | .bal l (.addr a) => encI 6 l a
  | .bal l (.known k) => if 0 ≤ k then encI 6 l (.regOff k 0) else none
  | .hlt => some (packWord 7 0 0 0)
  | .unrecognized (.number n) => if 8 ≤ n ∧ n ≤ 15 then some (packWord n 0 0 0) else none
  | .unrecognized (.name _) => none

/-! ### Source form -/

/-- R61: the opcode a record's (already upper-cased) opcode string names, if any. -/
def opcodeOf (s : String) : Option Opcode :=
  if s = "LDA" then some .lda
  else if s = "LD" then some .ld
  else if s = "ST" then some .st
  else if s = "ADD" then some .add
  else if s = "SLT" then some .slt
  else if s = "BZ" then some .bz
  else if s = "BAL" then some .bal
  else if s = "HLT" then some .hlt
  else none

/-- R62: how many operands each opcode requires. -/
def requiredOperands : Opcode → Nat
  | .lda | .ld | .st | .bz | .bal => 2
  | .add | .slt => 3
  | .hlt => 0

/-- A decimal digit, `0` to `9` (R63, R65). -/
def isDecDigit (c : Char) : Bool := decide ('0' ≤ c ∧ c ≤ '9')

/-- The value of a decimal digit. -/
def digitValue (c : Char) : Nat := c.toNat - 48

/-- The value of a string of decimal digits, most significant first; leading zeros allowed (R65). -/
def decimalValue (ds : List Char) : Nat := ds.foldl (fun n c => n * 10 + digitValue c) 0

/-- R63: the register token `$<digit>`; any other token is `BadReg`. -/
def regToken (t : String) : RegSel :=
  match t.toList with
  | ['$', c] => if isDecDigit c then .idx (digitValue c) else .badReg
  | _ => .badReg

/-- The part of an address token after its sign: digits, then exactly `($d)` (R65). -/
def addrTail (sign : Int) (cs : List Char) : AddrOp :=
  match cs.takeWhile isDecDigit, cs.dropWhile isDecDigit with
  | [], _ => .noMatch
  | ds, ['(', '$', c, ')'] =>
    if isDecDigit c then .regOff (sign * (decimalValue ds : Int)) (digitValue c) else .noMatch
  | _, _ => .noMatch

/-- R65, R66: the address token `-?[0-9]+\(\$[0-9]\)`, matched against the whole token. -/
def addrToken (t : String) : AddrOp :=
  match t.toList with
  | '-' :: cs => addrTail (-1) cs
  | cs => addrTail 1 cs

/-- R35: the index a name is bound to. The names of a table made by `labelInsert` are distinct. -/
def labelLookup : LabelTable → String → Option Nat
  | [], _ => none
  | (n, k) :: t, name => if n = name then some k else labelLookup t name

/-- R88: record a definition; the last definition of a name wins. -/
def labelInsert (t : LabelTable) (name : String) (k : Nat) : LabelTable :=
  t.filter (fun e => e.1 ≠ name) ++ [(name, k)]

/-- R67: the target of `BZ`. -/
def bzToken (labels : LabelTable) (t : String) : BzTgt :=
  match labelLookup labels t with
  | some k => .known k
  | none => .undefined t

/-- R68: the target of `BAL`; the label table is tried first. -/
def balToken (labels : LabelTable) (t : String) : BalTgt :=
  match labelLookup labels t with
  | some k => .known k
  | none => .addr (addrToken t)

/-- R71 for the eight opcodes: operands are read by position, extra ones ignored, and too few give
`SHORT` (R69). -/
def decodeOperands (labels : LabelTable) : Opcode → List String → Decoded
  | .lda, o0 :: o1 :: _ => .instr (.lda (regToken o0) (addrToken o1))
  | .ld, o0 :: o1 :: _ => .instr (.ld (regToken o0) (addrToken o1))
  | .st, o0 :: o1 :: _ => .instr (.st (regToken o0) (addrToken o1))
  | .add, o0 :: o1 :: o2 :: _ => .instr (.add (regToken o0) (regToken o1) (regToken o2))
  | .slt, o0 :: o1 :: o2 :: _ => .instr (.slt (regToken o0) (regToken o1) (regToken o2))
  | .bz, o0 :: o1 :: _ => .instr (.bz (regToken o0) (bzToken labels o1))
  | .bal, o0 :: o1 :: _ => .instr (.bal (regToken o0) (balToken labels o1))
  | .hlt, _ => .instr .hlt
  | op, ops => .short op ops.length

/-- R71: decoding a record against the label table. -/
def decodeRecord (labels : LabelTable) (r : InstrRecord) : Decoded :=
  match opcodeOf r.opcode with
  | none => .instr (.unrecognized (.name r.opcode))
  | some op => decodeOperands labels op r.operands

/-- R103: decoding one element of the instruction store. -/
def decodeStored (labels : LabelTable) : StoredInstr → Decoded
  | .word w => .instr (decodeWord w)
  | .record r => decodeRecord labels r

end Sys2Proof
end

