-- ==== Sys2Proof/Config.lean ====
section
/-! DEFINITION. The parameters of the machine (rule R4) and the one value the spec leaves open. -/

namespace Sys2Proof

/-- R4, D4: the values of the open parameter `UNKNOWN_OPCODE`. -/
inductive UnknownOpcode where
  | nop
  | fault
  deriving DecidableEq, Repr

/-- R4, D4: the default value of `UNKNOWN_OPCODE`. DESIGN CHOICE (log entry 8): the parameter
is a field of `State`, so statements hold for both values; reset gives it this default. -/
def Config.defaultUnknownOpcode : UnknownOpcode := .nop

/-- R4 `MEM_WORDS`: the number of data-memory words. -/
abbrev Config.memWords : Nat := 128

/-- R32, R34: what a data-memory cell holds that nothing has written since reset. -/
abbrev Config.unwrittenCell : Word := 0

/-- FREE VALUE (log entry 9). N9, U15: for a label text that holds white space the spec decides
neither that it is stripped before it is recorded nor that it is recorded as written. -/
opaque Config.labelIsStripped : String → Bool

end Sys2Proof
end

