-- ==== Sys2Proof/Machine/State.lean ====
section
/-! DEFINITION. The machine state (R20), the reasons a step stops, and the state after reset (R34). -/

namespace Sys2Proof.Machine

/-- R180: the faults a step raises. A fault is raised by an instruction's meaning, which answers a
next state with the fault latch set (R29, R188; log entry 4); `step` never answers `Outcome.fault`.
(`ParseFailure` belongs to `load` and no step raises it, R181.) -/
inductive Fault where
  /-- Raised by `BZ` when its condition holds and its label is undefined (R182). Safe: the spec's
  own fault. -/
  | undefinedLabelFailure (name : String)
  /-- Raised by `LD` and `ST` when the effective address, unmasked, is outside `[0,127]` (R183).
  Safe: the spec's own fault. -/
  | addressOutOfRangeFailure (address : Int)
  /-- Raised by every instruction with a register operand, when a selector it uses is `Idx(n)` with
  `n >= 4` or `BadReg` (R184). Safe: the spec's own fault. -/
  | registerIndexFailure (sel : RegSel)
  /-- Raised at dispatch for a record of one of the eight opcodes with too few operands (R185).
  Safe: the spec's own fault. -/
  | operandArityFailure (op : Opcode)
  /-- Raised by an unrecognized opcode when `UNKNOWN_OPCODE = fault` (R197). Safe: the spec's own
  fault. -/
  | unrecognizedOpcode (tag : OpTag)
  deriving DecidableEq, Repr

/-- R29, R180: a fault record, the fault with what it reports and the index of the faulting
instruction. -/
structure FaultRecord where
  kind : Fault
  index : Int
  deriving DecidableEq, Repr

/-- Why a step has no next state. -/
inductive Refusal where
  /-- An instruction of the opcode table without a meaning. Safe. No arm of `exec` answers it. -/
  | notModelled (mnemonic : String)
  /-- Raised by `step` alone: a fault was recorded by an earlier step, so the spec's own outcome of
  the step is `Refused` and nothing changes (R12 d, R108). Safe. -/
  | faultLatched (r : FaultRecord)
  deriving DecidableEq, Repr

/-- R21: the four general registers `$0` to `$3`. -/
structure Regs where
  x0 : Word
  x1 : Word
  x2 : Word
  x3 : Word
  deriving DecidableEq, Repr

/-- R32, R41: data memory as (address, word) pairs; the cell is one 16-bit word and there are no
bytes (R45; log entry 1). The canonical form is `Memory.wf`. -/
abbrev Memory := List (Nat × Word)

/-- R20: the state of the machine, and with it the parameters of its step function (the
instruction store R33, the label table R35 and `UNKNOWN_OPCODE` R4), which no step changes
(log entry 2). -/
structure State where
  /-- `x[0]` to `x[3]` (R21). -/
  regs : Regs
  /-- The program counter, an unbounded integer (R24). -/
  pc : Int
  /-- The run flag (R28). -/
  running : Bool
  /-- `M[0]` to `M[127]` (R32). -/
  mem : Memory
  /-- The fault latch (R29). -/
  fault : Option FaultRecord
  /-- The instruction store `IM[0]` to `IM[N-1]`; `N` is its length (R33). -/
  im : List StoredInstr
  /-- The label table of the source form; empty in the binary form (R35). -/
  labels : LabelTable
  /-- The parameter `UNKNOWN_OPCODE` (R4, R105). -/
  unknownOpcode : UnknownOpcode
  deriving DecidableEq, Repr

/-- R34: the state right after reset, before anything is loaded (log entry 7). -/
def State.reset : State where
  regs := { x0 := 0, x1 := 0, x2 := 0, x3 := 0 }
  pc := 0
  running := true
  mem := []
  fault := none
  im := []
  labels := []
  unknownOpcode := Config.defaultUnknownOpcode

end Sys2Proof.Machine
end

