-- ==== Sys2Proof/Machine/Ops.lean ====
section
/-! DEFINITION. The named operations over registers, memory, the program counter, the instruction
store and the control state, and raising a fault (R188) as one shared operation. -/

namespace Sys2Proof.Machine

/-- The three outcomes of executing an instruction or a step (the host's type). -/
abbrev Outcome := Host.Outcome State Fault Refusal

/-! ### Registers (R21, R22) -/

/-- `x[i]`: no register is hard-wired (R22). -/
def Regs.get (r : Regs) : Fin 4 → Word
  | 0 => r.x0
  | 1 => r.x1
  | 2 => r.x2
  | 3 => r.x3

/-- `x[i] <- v`: every register, `$0` included, takes the value written (R22). -/
def Regs.set (r : Regs) (i : Fin 4) (v : Word) : Regs :=
  match i with
  | 0 => { r with x0 := v }
  | 1 => { r with x1 := v }
  | 2 => { r with x2 := v }
  | 3 => { r with x3 := v }

/-- Read of a general register. -/
def State.reg (s : State) (i : Fin 4) : Word := s.regs.get i

/-- Write of a general register. -/
def State.setReg (s : State) (i : Fin 4) (v : Word) : State := { s with regs := s.regs.set i v }

/-! ### Data memory (R40 to R48) -/

/-- The word at a cell; a cell nothing has written reads 0 (R47). -/
def Memory.read : Memory → Nat → Word
  | [], _ => Config.unwrittenCell
  | (k, v) :: m, a => if k = a then v else Memory.read m a

/-- The memory with no entry for a cell. -/
def Memory.erase (m : Memory) (a : Nat) : Memory := m.filter (fun c => c.1 ≠ a)

/-- The memory with an entry put in address order. -/
def Memory.insert : Memory → Nat → Word → Memory
  | [], a, v => [(a, v)]
  | c :: m, a, v => if a < c.1 then (a, v) :: c :: m else c :: Memory.insert m a v

/-- Write of one cell. Writing what an unlisted cell reads as removes the entry, so that equal
memories are equal lists. -/
def Memory.write (m : Memory) (a : Nat) (v : Word) : Memory :=
  if v = Config.unwrittenCell then m.erase a else (m.erase a).insert a v

/-- The canonical form: addresses strictly rising and inside the 128 words, and no entry that equals
what an unlisted cell reads as. -/
abbrev Memory.wf (m : Memory) : Prop :=
  m.Pairwise (fun c d => c.1 < d.1) ∧ ∀ c ∈ m, c.1 < Config.memWords ∧ c.2 ≠ Config.unwrittenCell

/-- R44: the range test, on the effective address as an unbounded integer. -/
abbrev inDataRange (addr : Int) : Prop := 0 ≤ addr ∧ addr ≤ 127

/-- R42: `MemRead(addr, 1)`. -/
def memRead (s : State) (addr : Int) : Except Fault Word :=
  if inDataRange addr then .ok (s.mem.read addr.toNat) else .error (.addressOutOfRangeFailure addr)

/-- The state with another data memory. -/
def State.setMem (s : State) (m : Memory) : State := { s with mem := m }

/-- R43: `MemWrite(addr, 1, v)`. -/
def memWrite (s : State) (addr : Int) (v : Word) : Except Fault State :=
  if inDataRange addr then .ok (s.setMem (s.mem.write addr.toNat v))
  else .error (.addressOutOfRangeFailure addr)

/-! ### Program counter and instruction store (R24 to R27, R51) -/

/-- `pc <- k`: any integer, neither masked nor checked (R24, R167). -/
def State.setPc (s : State) (k : Int) : State := { s with pc := k }

/-- R102: the advance of every executing step, before the instruction's own effect. -/
def State.advancePc (s : State) : State := s.setPc (s.pc + 1)

/-- R25: `pc` is in bounds when `0 <= pc < N`. -/
abbrev State.pcInBounds (s : State) : Prop := 0 ≤ s.pc ∧ s.pc < (s.im.length : Int)

/-- R51: fetch reads `IM[pc]` when `pc` is in bounds, and has no side effect. -/
def State.fetch (s : State) : Option StoredInstr :=
  if 0 ≤ s.pc then s.im[s.pc.toNat]? else none

/-! ### Run flag and fault latch (R28, R29) -/

/-- `running <- false` (R100, R166). -/
def State.clearRunning (s : State) : State := { s with running := false }

/-- The state with a fault recorded in the latch (R29). The record's index is that of the faulting
instruction, which is `pc - 1`, since an instruction starts with `pc = p + 1` (R102; log entry 6). -/
def State.latchFault (s : State) (f : Fault) : State :=
  { s with fault := some { kind := f, index := s.pc - 1 } }

/-- R186, R188: a fault latches its record and ends the instruction; everything the lines before it
did stands, and nothing else changes. There is no handler, no saved state and no return from a fault
(R191, R192): the only way out is reset (R210). -/
def raise (f : Fault) (s : State) : Outcome := .next (s.latchFault f)

/-- The next state of an outcome, if it has one. -/
def nextState : Outcome → Option State
  | .next s => some s
  | .fault _ => none
  | .refused _ => none

end Sys2Proof.Machine
end

