-- ==== Sys2Proof/Machine/Flags.lean ====
section
/-! DEFINITION. The conditions instructions compute. The machine has no status flags and no condition
codes (R30): `SLT` writes its condition to a general register and `BZ` tests a general register. -/

namespace Sys2Proof.Machine

/-- R141: the signed compare, of the two signed readings as mathematical integers. -/
def signedLess (u v : Word) : Bool := decide (toSigned (unsigned u) < toSigned (unsigned v))

/-- R141: the word `SLT` writes, exactly 1 or 0. -/
def sltWord (u v : Word) : Word := if signedLess u v then 1 else 0

/-- R161: the test of `BZ`, that the whole 16-bit word equals 0. -/
def isZeroWord (w : Word) : Bool := decide (w = 0)

end Sys2Proof.Machine
end

