-- ==== Sys2Proof/Machine/Operands.lean ====
section
/-! DEFINITION. The operand forms: the checked register index (R64) and the effective address (R120),
and their use inside an instruction, where a bad one raises its fault (R110). -/

namespace Sys2Proof.Machine

/-- R64: `RegIdx(sel)`, the checked register index. -/
def regIdx : RegSel → Except Fault (Fin 4)
  | .idx n => if h : n < 4 then .ok ⟨n, h⟩ else .error (.registerIndexFailure (.idx n))
  | .badReg => .error (.registerIndexFailure .badReg)

/-- R120: `EA(a)`, an unbounded integer (R122). With base `$0` no register is read (R121). -/
def ea (a : AddrOp) (s : State) : Except Fault Int :=
  match a with
  | .noMatch => .ok 0
  | .regOff off 0 => .ok off
  | .regOff off (b + 1) =>
    match regIdx (.idx (b + 1)) with
    | .ok i => .ok (off + unsigned (s.reg i))
    | .error f => .error f

/-- A line `v := e` of a rule's pseudocode (R110): a raised fault ends the instruction with the
effects so far, which are `s`; else the next line runs with the value. -/
def useValue {α : Type} (e : Except Fault α) (s : State) (k : α → Outcome) : Outcome :=
  match e with
  | .ok v => k v
  | .error f => raise f s

/-- The line `i := RegIdx(sel)`. -/
def useReg (sel : RegSel) (s : State) (k : Fin 4 → Outcome) : Outcome := useValue (regIdx sel) s k

/-- The line `v := EA(a)`, read in the state the lines before it left. -/
def useEa (a : AddrOp) (s : State) (k : Int → Outcome) : Outcome := useValue (ea a s) s k

end Sys2Proof.Machine
end

