-- ==== Sys2Proof/Machine/Arithmetic.lean ====
section
/-! DEFINITION. The meanings of `ADD` and `SLT` (R140, R141). -/

namespace Sys2Proof.Machine

/-- R140: the sum of two words, reduced modulo 65536. -/
def addWord (u v : Word) : Word := toWord (unsigned u + unsigned v)

/-- R140: `ADD d, a, b`. -/
def execAdd (d a b : RegSel) (s : State) : Outcome :=
  useReg d s fun i =>
  useReg a s fun j =>
  useReg b s fun k =>
  .next (s.setReg i (addWord (s.reg j) (s.reg k)))

/-- R141: `SLT d, a, b`. -/
def execSlt (d a b : RegSel) (s : State) : Outcome :=
  useReg d s fun i =>
  useReg a s fun j =>
  useReg b s fun k =>
  .next (s.setReg i (sltWord (s.reg j) (s.reg k)))

end Sys2Proof.Machine
end

