-- ==== Sys2Proof/Machine/Control.lean ====
section
/-! DEFINITION. The meanings of `BZ`, `BAL`, `HLT` (R161, R162, R166) and of an unrecognized opcode
(R105). -/

namespace Sys2Proof.Machine

/-- R161: a taken branch; the label of the source form is looked up only here. -/
def branchTo (t : BzTgt) (s : State) : Outcome :=
  match t with
  | .known k => .next (s.setPc k)
  | .undefined name => raise (.undefinedLabelFailure name) s

/-- R161: `BZ c, t`. -/
def execBz (c : RegSel) (t : BzTgt) (s : State) : Outcome :=
  useReg c s fun i =>
  if isZeroWord (s.reg i) then branchTo t s else .next s

/-- R162: the jump of `BAL`; the address form puts the unmasked effective address in `pc`. -/
def jumpTo (t : BalTgt) (s : State) : Outcome :=
  match t with
  | .known k => .next (s.setPc k)
  | .addr a => useEa a s fun v => .next (s.setPc v)

/-- R162: `BAL l, t`; the link is written before the target is resolved (R164). -/
def execBal (l : RegSel) (t : BalTgt) (s : State) : Outcome :=
  useReg l s fun i =>
  jumpTo t (s.setReg i (toWord s.pc))

/-- R166: `HLT`. -/
def execHlt (s : State) : Outcome := .next s.clearRunning

/-- R105: an unrecognized opcode, under the parameter `UNKNOWN_OPCODE`. -/
def execUnrecognized (tag : OpTag) (s : State) : Outcome :=
  match s.unknownOpcode with
  | .nop => .next s
  | .fault => raise (.unrecognizedOpcode tag) s

end Sys2Proof.Machine
end

