-- ==== Sys2Proof/Machine/LoadStore.lean ====
section
/-! DEFINITION. The meanings of `LDA`, `LD` and `ST` (R123 to R125). -/

namespace Sys2Proof.Machine

/-- R123: `LDA d, a`, load address. -/
def execLda (d : RegSel) (a : AddrOp) (s : State) : Outcome :=
  useReg d s fun i =>
  useEa a s fun v =>
  .next (s.setReg i (toWord v))

/-- R124: `LD d, a`, load word. -/
def execLd (d : RegSel) (a : AddrOp) (s : State) : Outcome :=
  useReg d s fun i =>
  useEa a s fun v =>
  useValue (memRead s v) s fun w =>
  .next (s.setReg i w)

/-- R125: `ST s, a`, store word. -/
def execSt (r : RegSel) (a : AddrOp) (s : State) : Outcome :=
  useReg r s fun i =>
  useEa a s fun v =>
  useValue (memWrite s v (s.reg i)) s fun t =>
  .next t

end Sys2Proof.Machine
end

