-- ==== Sys2Proof/Machine/Dispatch.lean ====
section
/-! DEFINITION. R103: the effect of a decoded instruction, one arm per constructor of `Instr`. -/

namespace Sys2Proof.Machine

def exec (i : Instr) (s : State) : Host.Outcome State Fault Refusal :=
  match i with
  | .lda d a => Sys2Proof.Machine.execLda d a s
  | .ld d a => Sys2Proof.Machine.execLd d a s
  | .st r a => Sys2Proof.Machine.execSt r a s
  | .add d a b => Sys2Proof.Machine.execAdd d a b s
  | .slt d a b => Sys2Proof.Machine.execSlt d a b s
  | .bz c t => Sys2Proof.Machine.execBz c t s
  | .bal l t => Sys2Proof.Machine.execBal l t s
  | .hlt => Sys2Proof.Machine.execHlt s
  | .unrecognized tag => Sys2Proof.Machine.execUnrecognized tag s

end Sys2Proof.Machine
end

