-- ==== Sys2Proof/Machine/Execute.lean ====
section
/-! DEFINITION. What a step does with a fetched instruction (R102, R103, R106), and the placing of
one word in the instruction store. -/

namespace Sys2Proof.Machine

/-- R103, R106: the effect of what the decoder gave. -/
def execDecoded (d : Decoded) (s : State) : Outcome :=
  match d with
  | .instr i => exec i s
  | .short op _ => raise (.operandArityFailure op) s

/-- R102, R103: advance `pc`, then decode the fetched instruction and apply its effect. -/
def execStored (si : StoredInstr) (s : State) : Outcome :=
  execDecoded (decodeStored s.labels si) s.advancePc

/-- The instruction store with `x` at index `k`, lengthened with zero words where it is too short. -/
def placeAt (im : List StoredInstr) (k : Nat) (x : StoredInstr) : List StoredInstr :=
  if k < im.length then im.set k x
  else im ++ List.replicate (k - im.length) (.word 0) ++ [x]

/-- The state with one instruction word where the next step fetches: at index `pc` (at 0 when `pc`
is negative), in a machine that runs and has no fault latched. -/
def placeFetchWord (s : State) (w : Word) : State :=
  { s with
    im := placeAt s.im s.pc.toNat (.word w)
    pc := (s.pc.toNat : Int)
    running := true
    fault := none }

end Sys2Proof.Machine
end

