-- ==== Sys2Proof/Machine/Step.lean ====
section
/-! DEFINITION. One step (R100 to R108). -/

namespace Sys2Proof.Machine

/-- R108: with the fault latch set the step is refused and nothing changes. R100: with `running`
false or `pc` out of bounds the step clears `running` and does nothing else. R101 to R103: else it
fetches, advances `pc` and executes. -/
def step (s : State) : Host.Outcome State Fault Refusal :=
  match s.fault with
  | some r => .refused (.faultLatched r)
  | none =>
    if s.running then
      match s.fetch with
      | none => .next s.clearRunning
      | some si => execStored si s
    else .next s.clearRunning

/-- `s` with the instruction of `nbits` bits `w` stored where `step` fetches its next instruction, so
that the very next step runs it (log entries 7 and 16). -/
def State.withFetchWord (s : State) (nbits w : Nat) : State :=
  placeFetchWord s (BitVec.ofNat 16 (w % 2 ^ nbits))

end Sys2Proof.Machine
end

