-- ==== Sys2Proof/Machine/Assembler.lean ====
section
/-! DEFINITION. The single-pass labelling parser of the source form (R82 to R92). -/

namespace Sys2Proof.Machine

/-- What the parser gives: the instruction records and the label table. -/
structure Program where
  records : List InstrRecord
  labels : LabelTable
  deriving DecidableEq, Repr

/-- White space: space, tab, line feed, vertical tab, form feed, carriage return. PRESUMED (log
entry 10): the spec names no characters. -/
def isSpace (c : Char) : Bool := decide (c.toNat = 32 ∨ (9 ≤ c.toNat ∧ c.toNat ≤ 13))

/-- R85: what separates tokens, a comma or white space. -/
def isSeparator (c : Char) : Bool := c == ',' || isSpace c

/-- A text without its surrounding white space (R83). -/
def strip (cs : List Char) : List Char :=
  ((cs.dropWhile isSpace).reverse.dropWhile isSpace).reverse

/-- R83: the lines of a text, separated by line feeds. -/
def splitLines : List Char → List (List Char)
  | [] => [[]]
  | c :: cs =>
    if c = '\n' then [] :: splitLines cs
    else
      match splitLines cs with
      | [] => [[c]]
      | l :: ls => (c :: l) :: ls

/-- R83: everything from the first `;` onward is a comment. -/
def stripComment (line : List Char) : List Char := line.takeWhile (· ≠ ';')

/-- R84: the split at the first `:` of a line. -/
def splitLabel (line : List Char) : Option (List Char × List Char) :=
  if ':' ∈ line then some (line.takeWhile (· ≠ ':'), (line.dropWhile (· ≠ ':')).tail) else none

/-- The name recorded for a label's text. A text that holds white space is recorded as written or
stripped, and which is a free value (N9, U15; log entry 9). -/
def labelName (cs : List Char) : String :=
  if cs.any isSpace then
    if Config.labelIsStripped (String.ofList cs) then String.ofList (strip cs) else String.ofList cs
  else String.ofList cs

/-- The tokens of a text after those of `acc`, the characters of the token being read in reverse. A run
of separators at the very start or end gives no empty token: `BZ $1,` has one operand. DESIGN CHOICE
(log entry 22): R85 does not say. -/
def tokensFrom (acc : List Char) : List Char → List (List Char)
  | [] => if acc.isEmpty then [] else [acc.reverse]
  | c :: cs =>
    if isSeparator c then
      if acc.isEmpty then tokensFrom [] cs else acc.reverse :: tokensFrom [] cs
    else tokensFrom (c :: acc) cs

/-- R85: the tokens of a text, split at runs of commas and white space, none of them empty (log entry
22). -/
def tokens (cs : List Char) : List (List Char) := tokensFrom [] cs

/-- R85: the opcode is upper-cased (ASCII letters: log entry 11). -/
def upperCase (cs : List Char) : String := String.ofList (cs.map Char.toUpper)

/-- R85, R86: emission of one record for a line's remainder; a remainder without a token emits none
(R84; log entry 12). -/
def emit (rest : List Char) (p : Program) : Program :=
  match tokens rest with
  | [] => p
  | op :: operands =>
    { p with
      records := p.records ++
        [{ opcode := upperCase op, operands := operands.map String.ofList, raw := String.ofList rest }] }

/-- R84: recording of a label at the next instruction index, the count of records so far. -/
def defineLabel (name : String) (p : Program) : Program :=
  { p with labels := labelInsert p.labels name p.records.length }

/-- R83 to R86: one line. A blank line changes nothing. -/
def parseLine (p : Program) (line : List Char) : Program :=
  let l := strip (stripComment line)
  if l.isEmpty then p
  else
    match splitLabel l with
    | none => emit l p
    | some (name, rest) => emit (strip rest) (defineLabel (labelName name) p)

/-- R83: the parser's one pass over the lines. It validates nothing (R87) and accepts every text
(R181). -/
def parseProgram (text : String) : Program :=
  (splitLines text.toList).foldl parseLine { records := [], labels := [] }

end Sys2Proof.Machine
end

