-- ==== Sys2Proof/Machine/HostInterface.lean ====
section
/-! DEFINITION. What the host sees of the machine and can do to it between steps (R12, R104, R109,
R210, R213 to R215). -/

namespace Sys2Proof.Machine

/-! ### Reset and load (R210, R212, R213) -/

/-- R210, R34: reset as an event; the loaded program and the parameters are kept (log entry 19). -/
def State.resetEvent (s : State) : State :=
  { State.reset with im := s.im, labels := s.labels, unknownOpcode := s.unknownOpcode }

/-- R213: what `load` returns. -/
inductive LoadResult where
  | ok (s : State)
  | parseFailure
  deriving DecidableEq, Repr

/-- R213: `load(sourceText)` sets the instruction store and the label table. No text gives
`ParseFailure` (R181). -/
def State.load (s : State) (text : String) : LoadResult :=
  let p := parseProgram text
  .ok { s with im := p.records.map .record, labels := p.labels }

/-- R212: filling the instruction store with words, the binary form's load. -/
def State.loadWords (s : State) (ws : List Word) : State :=
  { s with im := ws.map .word, labels := [] }

/-! ### Accessors (R213) -/

/-- R213: the register snapshot, the unsigned stored words (R104). -/
def State.regSnapshot (s : State) : List Nat :=
  [s.regs.x0.toNat, s.regs.x1.toNat, s.regs.x2.toNat, s.regs.x3.toNat]

/-- R213: the memory snapshot `(M[0], ..., M[127])`. -/
def State.memSnapshot (s : State) : List Word := (List.range Config.memWords).map s.mem.read

/-- R213: `isRunning()`. -/
def State.isRunning (s : State) : Bool := s.running

/-! ### The outcome of a step (R12, R104) -/

/-- R104: the instruction as the trace record shows it, raw text or instruction word. -/
inductive InstrText where
  | text (raw : String)
  | word (w : Word)
  deriving DecidableEq, Repr

/-- R104: `I.raw`, or the instruction word in the binary form. -/
def storedText : StoredInstr → InstrText
  | .word w => .word w
  | .record r => .text r.raw

/-- R104: the trace record. -/
structure TraceRecord where
  pc : Int
  instructionText : InstrText
  registers : List Nat
  deriving DecidableEq, Repr

/-- R12: the four outcomes of a step as the host sees them. A fault is reported with the
instruction's text as well (R180). -/
inductive StepResult where
  | trace (r : TraceRecord)
  | halted
  | fault (r : FaultRecord) (text : InstrText)
  | refused
  deriving DecidableEq, Repr

/-- R104, R186: the outcome of a step that fetched `si` at index `p` and left the state `t`. -/
def executedResult (p : Int) (si : StoredInstr) (t : State) : StepResult :=
  match t.fault with
  | some r => .fault r (storedText si)
  | none => .trace { pc := p, instructionText := storedText si, registers := t.regSnapshot }

/-- The instruction the next step executes, if it executes one (R100, R101, R108). -/
def State.nextStored (s : State) : Option StoredInstr :=
  match s.fault with
  | some _ => none
  | none => if s.running then s.fetch else none

/-- R108, R100: the outcome of a step that executes no instruction. -/
def idleResult (s : State) : StepResult :=
  match s.fault with
  | some _ => .refused
  | none => .halted

/-- R213: the machine after one call of `step()`, and what the call returns. -/
def State.call (s : State) : StepResult × State :=
  let t := (nextState (step s)).getD s
  match s.nextStored with
  | some si => (executedResult s.pc si t, t)
  | none => (idleResult s, t)

/-! ### The driving loop and the end of a run (R109, R215) -/

/-- R215: how far a run has come, read from the state. -/
inductive RunEnd where
  | normal
  | failure (r : FaultRecord)
  | notYet
  deriving DecidableEq, Repr

/-- R215: a run has ended when `running = false` or `fault` is set, in failure when `fault` is set. -/
def State.runEnd (s : State) : RunEnd :=
  match s.fault with
  | some r => .failure r
  | none => if s.running then .notYet else .normal

/-- R109: the driving loop, for at most `n` calls of `step()`: the trace records produced, and the
machine after the first call that produced none. -/
def drive : Nat → State → List TraceRecord × State
  | 0, s => ([], s)
  | n + 1, s =>
    match s.call with
    | (.trace r, t) => (r :: (drive n t).1, (drive n t).2)
    | (.halted, t) => ([], t)
    | (.fault _ _, t) => ([], t)
    | (.refused, t) => ([], t)

end Sys2Proof.Machine
end

