-- ==== Sys2Proof/WellFormed.lean ====
section
/-! DEFINITION. Which terms of `Instr` a decoder can give (R70's ranges), and which have a binary
form (R81's domain). -/

namespace Sys2Proof

/-- R70: `Idx(n)` has `n` in 0 to 9 in the source form and 0 to 3 in the binary form. -/
def RegSel.wf : RegSel → Bool
  | .idx n => decide (n ≤ 9)
  | .badReg => true

/-- R70: the base of an address operand is 0 to 9 (source) or 0 to 3 (binary); the offset is any
integer. -/
def AddrOp.wf : AddrOp → Bool
  | .regOff _ b => decide (b ≤ 9)
  | .noMatch => true

/-- R68: a known `BAL` target is a label's instruction index, which is not negative. -/
def BalTgt.wf : BalTgt → Bool
  | .known k => decide (0 ≤ k)
  | .addr a => a.wf

/-- R70, R79, R61: a numeric tag is 8 to 15, and a string tag is no opcode of the vocabulary. -/
def OpTag.wf : OpTag → Bool
  | .number n => decide (8 ≤ n ∧ n ≤ 15)
  | .name s => decide (s ∉ ["LDA", "LD", "ST", "ADD", "SLT", "BZ", "BAL", "HLT"])

/-- A decoded instruction within the ranges of R70. -/
def Instr.wf : Instr → Bool
  | .lda d a => d.wf && a.wf
  | .ld d a => d.wf && a.wf
  | .st r a => r.wf && a.wf
  | .add d a b => d.wf && a.wf && b.wf
  | .slt d a b => d.wf && a.wf && b.wf
  | .bz c _ => c.wf
  | .bal l t => l.wf && t.wf
  | .hlt => true
  | .unrecognized tag => tag.wf

/-- R81: a register selector that a 2-bit field can hold. -/
def RegSel.encodable : RegSel → Bool
  | .idx n => decide (n ≤ 3)
  | .badReg => false

/-- R81: an address operand that the binary form can hold. -/
def AddrOp.encodable : AddrOp → Bool
  | .regOff off b => decide (-128 ≤ off ∧ off ≤ 127 ∧ b ≤ 3)
  | .noMatch => false

/-- R81: a `BZ` target that the binary form can hold. -/
def BzTgt.encodable : BzTgt → Bool
  | .known k => decide (-128 ≤ k ∧ k ≤ 127)
  | .undefined _ => false

/-- R81: a `BAL` target that the binary form can hold. -/
def BalTgt.encodable : BalTgt → Bool
  | .known k => decide (0 ≤ k ∧ k ≤ 127)
  | .addr a => a.encodable

/-- R81: the domain of `Enc`. -/
def Instr.encodable : Instr → Bool
  | .lda d a => d.encodable && a.encodable
  | .ld d a => d.encodable && a.encodable
  | .st r a => r.encodable && a.encodable
  | .add d a b => d.encodable && a.encodable && b.encodable
  | .slt d a b => d.encodable && a.encodable && b.encodable
  | .bz c t => c.encodable && t.encodable
  | .bal l t => l.encodable && t.encodable
  | .hlt => true
  | .unrecognized (.number n) => decide (8 ≤ n ∧ n ≤ 15)
  | .unrecognized (.name _) => false

/-- R81, R163: the form an encodable instruction comes back in from the binary form, where `BAL`
has only the `Addr` case. -/
def Instr.binaryForm : Instr → Instr
  | .bal l (.known k) => .bal l (.addr (.regOff k 0))
  | i => i

end Sys2Proof
end

