-- ==== Sys2Proof/Safety.lean ====
section
/-! DEFINITION. The terms in which statements are made: frames, what raising a fault leaves, the
invariant every step keeps, and runs. -/

namespace Sys2Proof.Machine

/-! ### Frames -/

/-- Every cell of data memory reads as before. -/
def SameMemory (s t : State) : Prop := ∀ a : Nat, t.mem.read a = s.mem.read a

/-- Every cell of data memory but cell `v` reads as before. -/
def SameMemoryExcept (v : Nat) (s t : State) : Prop := ∀ a : Nat, a ≠ v → t.mem.read a = s.mem.read a

/-- Every general register reads as before. -/
def SameRegs (s t : State) : Prop := ∀ j : Fin 4, t.reg j = s.reg j

/-- Every general register but `i` reads as before. -/
def SameRegsExcept (i : Fin 4) (s t : State) : Prop := ∀ j : Fin 4, j ≠ i → t.reg j = s.reg j

/-- The run flag and the fault latch are as before. -/
def SameControl (s t : State) : Prop := t.running = s.running ∧ t.fault = s.fault

/-- The instruction store, the label table and `UNKNOWN_OPCODE` are as before. -/
def SameProgram (s t : State) : Prop :=
  t.im = s.im ∧ t.labels = s.labels ∧ t.unknownOpcode = s.unknownOpcode

/-- What executing `i` in `s` does where it raises `f`: the fault is latched with the executing
instruction's index, and nothing else changes (R188). -/
def RaisesFault (i : Instr) (s : State) (f : Fault) : Prop :=
  ∃ t, exec i s = .next t ∧ t.fault = some { kind := f, index := s.pc - 1 } ∧
    SameRegs s t ∧ SameMemory s t ∧ t.pc = s.pc ∧ t.running = s.running ∧ SameProgram s t

/-! ### What the next step executes -/

/-- The instruction the next step decodes, or `SHORT`; none where it executes nothing. -/
def State.nextDecoded (s : State) : Option Decoded := s.nextStored.map (decodeStored s.labels)

/-- The next step executes the instruction `i`. -/
def Executes (s : State) (i : Instr) : Prop := s.nextDecoded = some (.instr i)

/-- The instruction `i`, executed in `s`, stores to cell `v`. -/
def StoresTo (i : Instr) (s : State) (v : Int) : Prop :=
  ∃ r a j, i = .st r a ∧ regIdx r = .ok j ∧ ea a s = .ok v ∧ inDataRange v

/-- A sequence of steps from `s` to `t` none of which stores to cell `v`. -/
inductive QuietSteps (v : Int) (s : State) : State → Prop where
  | refl : QuietSteps v s s
  | step {t u : State} : QuietSteps v s t → (∀ i, Executes t i → ¬ StoresTo i t.advancePc v) →
      step t = .next u → QuietSteps v s u

/-- The states reached from `s` by steps. -/
inductive Reaches (s : State) : State → Prop where
  | refl : Reaches s s
  | step {t u : State} : Reaches s t → step t = .next u → Reaches s u

/-! ### Ignored bits (R74, R80) -/

/-- The word with the bits its opcode does not use set to 0: those R74 marks ignored for opcodes 0 to
7, and bits 11:0 for opcodes 8 to 15, which R74 gives no format, and of which `Dec` reads bits 15:12
alone (R78, R105; log entry 23). -/
def significantBits (w : Word) : Word :=
  match slice w 15 12 with
  | 0 | 1 | 2 | 6 => w
  | 3 | 4 => BitVec.ofNat 16 (slice w 15 6 * 64)
  | 5 => BitVec.ofNat 16 (slice w 15 10 * 1024 + slice w 7 0)
  | _ => BitVec.ofNat 16 (slice w 15 12 * 4096)

/-! ### Registers an instruction reads and writes (R23) -/

/-- The register a valid selector names, as a list. -/
def selected (r : RegSel) : List (Fin 4) :=
  match regIdx r with
  | .ok i => [i]
  | .error _ => []

/-- R23: the register read as base, suppressed when the base is `$0`. -/
def baseRead : AddrOp → List (Fin 4)
  | .regOff _ 0 => []
  | .regOff _ (b + 1) => selected (.idx (b + 1))
  | .noMatch => []

/-- R23: the registers an instruction reads, as data or as base. -/
def regsRead : Instr → List (Fin 4)
  | .lda _ a => baseRead a
  | .ld _ a => baseRead a
  | .st r a => selected r ++ baseRead a
  | .add _ a b => selected a ++ selected b
  | .slt _ a b => selected a ++ selected b
  | .bz c _ => selected c
  | .bal _ (.known _) => []
  | .bal _ (.addr a) => baseRead a
  | .hlt => []
  | .unrecognized _ => []

/-- R23: the register an instruction writes, if any. -/
def regsWritten : Instr → List (Fin 4)
  | .lda d _ => selected d
  | .ld d _ => selected d
  | .st _ _ => []
  | .add d _ _ => selected d
  | .slt d _ _ => selected d
  | .bz _ _ => []
  | .bal l _ => selected l
  | .hlt => []
  | .unrecognized _ => []

/-! ### The invariant and safe runs -/

/-- What every step keeps: data memory is canonical and inside its 128 words, and a machine with a
fault latched has `running` true and `pc` one past the faulting instruction, which is an instruction
of the store (R29, R188). -/
def Inv (s : State) : Prop :=
  s.mem.wf ∧
  ∀ r, s.fault = some r →
    s.running = true ∧ s.pc = r.index + 1 ∧ 0 ≤ r.index ∧ r.index < (s.im.length : Int)

/-- Every element of the instruction store is an instruction word: a machine in the binary form
(R73). -/
def BinaryStore (s : State) : Prop := ∀ si ∈ s.im, ∃ w, si = .word w

/-- A safe run: no state reached from `s` has a fault latched (R186). -/
def SafeFrom (s : State) : Prop := ∀ t, Reaches s t → t.fault = none

end Sys2Proof.Machine
end

