-- ==== Sys2Proof/Certificates/Slice0/Obligations.lean ====
section
/-! DEFINITION. The statements for the provers, about the machine as the numbered rules describe it. -/

open Sys2Proof Sys2Proof.Machine

/-! ### Words -/

/-- R7: `toWord(v) = v mod 65536`, the non-negative remainder, for every integer. -/
def Obligations.ToWordIsNonNegativeRemainder : Prop :=
  (∀ v : Int, unsigned (toWord v) = v % 65536 ∧ 0 ≤ unsigned (toWord v) ∧
    unsigned (toWord v) ≤ 65535) ∧
  unsigned (toWord (-1)) = 65535 ∧ unsigned (toWord (-2)) = 65534 ∧
  unsigned (toWord 65536) = 0 ∧ unsigned (toWord 70000) = 4464

/-- R8, R9: the signed reading and the top bit of any integer. -/
def Obligations.SignedReadingAndTopBit : Prop :=
  (∀ v : Int,
    toSigned v =
      (if 32768 ≤ unsigned (toWord v) then unsigned (toWord v) - 65536 else unsigned (toWord v)) ∧
    -32768 ≤ toSigned v ∧ toSigned v ≤ 32767 ∧
    isNegative v = decide (32768 ≤ unsigned (toWord v)) ∧
    isNegative v = (toWord v).getLsbD 15 ∧
    isNegative v = decide (toSigned v < 0)) ∧
  toSigned 0xFFFF = -1 ∧ toSigned 0x8000 = -32768 ∧ toSigned 0x7FFF = 32767 ∧ toSigned 0 = 0

/-- R10: the round-trip laws of the two readings. -/
def Obligations.WordReadingsRoundTrip : Prop :=
  ∀ v : Int,
    toSigned (unsigned (toWord v)) = toSigned v ∧
    toWord (unsigned (toWord v)) = toWord v ∧
    toWord (toSigned v) = toWord v

/-- R146: the laws of `ADD` and `SLT` on words. -/
def Obligations.WordArithmeticLaws : Prop :=
  ∀ u v w : Word,
    addWord u v = addWord v u ∧
    addWord (addWord u v) w = addWord u (addWord v w) ∧
    addWord u 0 = u ∧
    addWord u (toWord (65536 - unsigned u)) = 0 ∧
    (toSigned (unsigned (addWord u v)) = toSigned (unsigned u) + toSigned (unsigned v) ↔
      -32768 ≤ toSigned (unsigned u) + toSigned (unsigned v) ∧
      toSigned (unsigned u) + toSigned (unsigned v) ≤ 32767) ∧
    (¬ (-32768 ≤ toSigned (unsigned u) + toSigned (unsigned v) ∧
        toSigned (unsigned u) + toSigned (unsigned v) ≤ 32767) →
      toSigned (unsigned (addWord u v)) = toSigned (unsigned u) + toSigned (unsigned v) + 65536 ∨
      toSigned (unsigned (addWord u v)) = toSigned (unsigned u) + toSigned (unsigned v) - 65536) ∧
    sltWord u u = 0 ∧
    (sltWord u v = 1 → sltWord v w = 1 → sltWord u w = 1) ∧
    (u ≠ v → (sltWord u v = 1 ∧ sltWord v u = 0) ∨ (sltWord u v = 0 ∧ sltWord v u = 1))

/-! ### Encoding, binary form -/

/-- R78: `Dec(W)` on all words: dispatch on bits 15:12 alone, every field read as R77 places it. -/
def Obligations.DecoderFollowsOpcodeTable : Prop :=
  ∀ w : Word,
    (slice w 15 12 = 0 → decodeWord w =
      .lda (.idx (slice w 11 10)) (.regOff (sext8 (slice w 7 0)) (slice w 9 8))) ∧
    (slice w 15 12 = 1 → decodeWord w =
      .ld (.idx (slice w 11 10)) (.regOff (sext8 (slice w 7 0)) (slice w 9 8))) ∧
    (slice w 15 12 = 2 → decodeWord w =
      .st (.idx (slice w 11 10)) (.regOff (sext8 (slice w 7 0)) (slice w 9 8))) ∧
    (slice w 15 12 = 3 → decodeWord w =
      .add (.idx (slice w 11 10)) (.idx (slice w 9 8)) (.idx (slice w 7 6))) ∧
    (slice w 15 12 = 4 → decodeWord w =
      .slt (.idx (slice w 11 10)) (.idx (slice w 9 8)) (.idx (slice w 7 6))) ∧
    (slice w 15 12 = 5 → decodeWord w =
      .bz (.idx (slice w 11 10)) (.known (sext8 (slice w 7 0)))) ∧
    (slice w 15 12 = 6 → decodeWord w =
      .bal (.idx (slice w 11 10)) (.addr (.regOff (sext8 (slice w 7 0)) (slice w 9 8)))) ∧
    (slice w 15 12 = 7 → decodeWord w = .hlt) ∧
    (8 ≤ slice w 15 12 → decodeWord w = .unrecognized (.number (slice w 15 12))) ∧
    slice w 15 12 ≤ 15 ∧ slice w 11 10 ≤ 3 ∧ slice w 9 8 ≤ 3 ∧ slice w 7 6 ≤ 3 ∧
    -128 ≤ sext8 (slice w 7 0) ∧ sext8 (slice w 7 0) ≤ 127

/-- Words written out bit by bit from R74 and R75 decode to the instructions they stand for. -/
def Obligations.SpelledOutWordsDecode : Prop :=
  decodeWord 0b0000111111111110 = .lda (.idx 3) (.regOff (-2) 3) ∧
  decodeWord 0b0000010010000000 = .lda (.idx 1) (.regOff (-128) 0) ∧
  decodeWord 0b0001101100000000 = .ld (.idx 2) (.regOff 0 3) ∧
  decodeWord 0b0010110001100100 = .st (.idx 3) (.regOff 100 0) ∧
  decodeWord 0b0011111101111111 = .add (.idx 3) (.idx 3) (.idx 1) ∧
  decodeWord 0b0100001011000000 = .slt (.idx 0) (.idx 2) (.idx 3) ∧
  decodeWord 0b0101011100000110 = .bz (.idx 1) (.known 6) ∧
  decodeWord 0b0110101111111011 = .bal (.idx 2) (.addr (.regOff (-5) 3)) ∧
  decodeWord 0b0111111111111111 = .hlt ∧
  decodeWord 0b1111111111111111 = .unrecognized (.number 15)

/-- R81: `Enc` is defined exactly on the encodable instructions, and for each of them `Dec(Enc(i))`
is `i` again (with `BAL l, Known(k)` as `Addr(RegOff(k, 0))`) and has the same effect as `i` in every
state. -/
def Obligations.DecodeOfEncodeIsTheInstruction : Prop :=
  ∀ i : Instr,
    ((encode i).isSome = true ↔ i.encodable = true) ∧
    ∀ w, encode i = some w →
      decodeWord w = i.binaryForm ∧ ∀ s, exec (decodeWord w) s = exec i s

/-- R80: two words are the same instruction exactly when they differ only in ignored bits, and the
encoder writes the ignored bits as 0. For opcodes 8 to 15, which R74 gives no format, bits 11:0 take
no part by R78 and R105, and that the encoder writes them as 0 is the model's choice (log entry 23). -/
def Obligations.IgnoredBitsTakeNoPart : Prop :=
  (∀ w : Word, encode (decodeWord w) = some (significantBits w)) ∧
  ∀ w v : Word, decodeWord w = decodeWord v ↔
    significantBits w = significantBits v

/-- R70: both decoders give instructions within the type's ranges; those of the binary form are
encodable, so no word gives `BadReg`, `NoMatch`, `Undefined` or a register above 3 (R78). -/
def Obligations.DecodersGiveWellFormedInstructions : Prop :=
  (∀ w : Word, (decodeWord w).wf = true ∧ (decodeWord w).encodable = true ∧
    (decodeWord w).binaryForm = decodeWord w) ∧
  ∀ labels r i, decodeRecord labels r = .instr i → i.wf = true

/-! ### Encoding, source form -/

/-- R63: a register token is a dollar sign and one decimal digit; any other token is `BadReg`, which
is a register-index failure when used. -/
def Obligations.RegisterTokenShape : Prop :=
  (∀ t n, regToken t = .idx n ↔
    ∃ c, t.toList = ['$', c] ∧ '0' ≤ c ∧ c ≤ '9' ∧ n = c.toNat - '0'.toNat) ∧
  (∀ t, (¬ ∃ c, t.toList = ['$', c] ∧ '0' ≤ c ∧ c ≤ '9') → regToken t = .badReg) ∧
  regIdx .badReg = .error (.registerIndexFailure .badReg)

/-- R65, R66: exactly the tokens of the shape `-?[0-9]+\(\$[0-9]\)` give an address operand, with the
signed decimal value and the base digit; every other token is `NoMatch`, whose effective address
is 0. -/
def Obligations.AddressTokenShape : Prop :=
  (∀ (neg : Bool) (ds : List Char) (c : Char) (t : String), ds ≠ [] →
    (∀ d ∈ ds, '0' ≤ d ∧ d ≤ '9') → '0' ≤ c → c ≤ '9' →
    t.toList = (if neg then ['-'] else []) ++ ds ++ ['(', '$', c, ')'] →
    addrToken t = .regOff ((if neg then -1 else 1) * (decimalValue ds : Int)) (c.toNat - '0'.toNat)) ∧
  (∀ t, addrToken t ≠ .noMatch → ∃ (neg : Bool) (ds : List Char) (c : Char), ds ≠ [] ∧
    (∀ d ∈ ds, '0' ≤ d ∧ d ≤ '9') ∧ '0' ≤ c ∧ c ≤ '9' ∧
    t.toList = (if neg then ['-'] else []) ++ ds ++ ['(', '$', c, ')']) ∧
  decimalValue [] = 0 ∧
  (∀ ds d, decimalValue (ds ++ [d]) = decimalValue ds * 10 + (d.toNat - '0'.toNat)) ∧
  ∀ s, ea .noMatch s = .ok 0

/-- R67, R68: a name in the label table is a known target of `BZ` and of `BAL`; a name in no table is
an undefined label of `BZ` and an address operand of `BAL`. -/
def Obligations.BranchTokenResolution : Prop :=
  ∀ (labels : LabelTable) (t : String),
    (∀ k, labelLookup labels t = some k →
      bzToken labels t = .known k ∧ balToken labels t = .known k) ∧
    (labelLookup labels t = none →
      bzToken labels t = .undefined t ∧ balToken labels t = .addr (addrToken t))

/-- R71, with R61 and R62: the decoding of a record, by opcode and number of operands. -/
def Obligations.RecordDecoding : Prop :=
  ∀ (labels : LabelTable) (raw o0 o1 o2 : String) (rest : List String),
    decodeRecord labels { opcode := "LDA", operands := o0 :: o1 :: rest, raw := raw } =
      .instr (.lda (regToken o0) (addrToken o1)) ∧
    decodeRecord labels { opcode := "LD", operands := o0 :: o1 :: rest, raw := raw } =
      .instr (.ld (regToken o0) (addrToken o1)) ∧
    decodeRecord labels { opcode := "ST", operands := o0 :: o1 :: rest, raw := raw } =
      .instr (.st (regToken o0) (addrToken o1)) ∧
    decodeRecord labels { opcode := "ADD", operands := o0 :: o1 :: o2 :: rest, raw := raw } =
      .instr (.add (regToken o0) (regToken o1) (regToken o2)) ∧
    decodeRecord labels { opcode := "SLT", operands := o0 :: o1 :: o2 :: rest, raw := raw } =
      .instr (.slt (regToken o0) (regToken o1) (regToken o2)) ∧
    decodeRecord labels { opcode := "BZ", operands := o0 :: o1 :: rest, raw := raw } =
      .instr (.bz (regToken o0) (bzToken labels o1)) ∧
    decodeRecord labels { opcode := "BAL", operands := o0 :: o1 :: rest, raw := raw } =
      .instr (.bal (regToken o0) (balToken labels o1)) ∧
    decodeRecord labels { opcode := "HLT", operands := rest, raw := raw } = .instr .hlt ∧
    (∀ e ∈ [("LDA", Opcode.lda, 2), ("LD", .ld, 2), ("ST", .st, 2), ("ADD", .add, 3),
        ("SLT", .slt, 3), ("BZ", .bz, 2), ("BAL", .bal, 2)],
      rest.length < e.2.2 →
      decodeRecord labels { opcode := e.1, operands := rest, raw := raw } =
        .short e.2.1 rest.length) ∧
    ∀ op, op ∉ ["LDA", "LD", "ST", "ADD", "SLT", "BZ", "BAL", "HLT"] →
      decodeRecord labels { opcode := op, operands := rest, raw := raw } =
        .instr (.unrecognized (.name op))

/-- R69, R106: a record is `SHORT` exactly when its opcode is one of the eight and its operands are
too few; extra operands change nothing; executing `SHORT` raises `OperandArityFailure` with the
opcode and the instruction's index, whatever the registers hold, and changes nothing else. -/
def Obligations.TooFewOperandsFault : Prop :=
  (∀ labels r op n, decodeRecord labels r = .short op n ↔
    opcodeOf r.opcode = some op ∧ r.operands.length = n ∧ n < requiredOperands op) ∧
  (∀ labels r extra, (∀ op, opcodeOf r.opcode = some op → requiredOperands op ≤ r.operands.length) →
    decodeRecord labels { r with operands := r.operands ++ extra } = decodeRecord labels r) ∧
  (∀ labels w op n, decodeStored labels (.word w) ≠ .short op n) ∧
  ∀ op n s, ∃ t, execDecoded (.short op n) s = .next t ∧
    t.fault = some { kind := .operandArityFailure op, index := s.pc - 1 } ∧
    SameRegs s t ∧ SameMemory s t ∧ t.pc = s.pc ∧ t.running = s.running ∧ SameProgram s t

/-! ### The parser -/

/-- R83: a comment changes nothing of its line, and a line that is blank without it changes
nothing. -/
def Obligations.CommentsAndBlankLinesChangeNothing : Prop :=
  (∀ p line comment, ';' ∉ line → parseLine p (line ++ ';' :: comment) = parseLine p line) ∧
  ∀ p line, (∀ c ∈ line, isSpace c = true) → parseLine p line = p

/-- R84, R86: a line appends at most one record and binds at most one label, to the count of records
before the line. -/
def Obligations.LineEmitsAtMostOneRecordAndOneLabel : Prop :=
  ∀ p line,
    ((parseLine p line).records = p.records ∨
      ∃ r, (parseLine p line).records = p.records ++ [r]) ∧
    ((parseLine p line).labels = p.labels ∨
      ∃ name, (parseLine p line).labels = labelInsert p.labels name p.records.length)

/-- R84, R85, R86: what a line gives. Tokens separated by runs of commas and white space give one
record: the opcode upper-cased, the operands as written, and the line as `raw`. A name and a colon
before them binds the name to that record's index, and alone to the next record's. -/
def Obligations.LineGivesItsRecordAndLabel : Prop :=
  ∀ (p : Program) (op : List Char) (operands : List (List Char × List Char)) (name : List Char),
    (∀ t ∈ op :: operands.map Prod.snd, t ≠ [] ∧
      ∀ c ∈ t, c ≠ ';' ∧ c ≠ ':' ∧ isSeparator c = false) →
    (∀ sep ∈ operands.map Prod.fst, sep ≠ [] ∧ ∀ c ∈ sep, isSeparator c = true) →
    (∀ c ∈ name, c ≠ ';' ∧ c ≠ ':' ∧ isSpace c = false) →
    ∀ line, line = op ++ operands.flatMap (fun e => e.1 ++ e.2) →
    ∀ r : InstrRecord,
      r = { opcode := String.ofList (op.map Char.toUpper), operands := operands.map (fun e => String.ofList e.2), raw := String.ofList line } →
      parseLine p line = { records := p.records ++ [r], labels := p.labels } ∧
      parseLine p (name ++ ':' :: line) =
        { records := p.records ++ [r], labels := labelInsert p.labels (String.ofList name) p.records.length } ∧
      parseLine p (name ++ [':']) =
        { records := p.records, labels := labelInsert p.labels (String.ofList name) p.records.length }

/-- R88: the names of a table are unique, and the last definition of a name wins. -/
def Obligations.LastLabelDefinitionWins : Prop :=
  ∀ (t : LabelTable) (name : String) (k : Nat),
    labelLookup (labelInsert t name k) name = some k ∧
    (∀ other, other ≠ name → labelLookup (labelInsert t name k) other = labelLookup t other) ∧
    ((t.map Prod.fst).Nodup → ((labelInsert t name k).map Prod.fst).Nodup)

/-- R67, R90: every label the parser binds has an index between 0 and `N`, and the names of its table
are unique (R88). -/
def Obligations.ParsedLabelsStayWithinProgram : Prop :=
  ∀ text : String,
    ((parseProgram text).labels.map Prod.fst).Nodup ∧
    ∀ name k, labelLookup (parseProgram text).labels name = some k →
      k ≤ (parseProgram text).records.length

/-- R181, R87, R213: `load` accepts every text; it sets the instruction store and the label table
and nothing else. R92: the empty text is a program of no instructions, and its first step halts. -/
def Obligations.LoadAcceptsEveryText : Prop :=
  (∀ (s : State) (text : String), ∃ t, s.load text = .ok t ∧
    t.im = (parseProgram text).records.map .record ∧ t.labels = (parseProgram text).labels ∧
    t.regs = s.regs ∧ t.pc = s.pc ∧ t.running = s.running ∧ t.mem = s.mem ∧ t.fault = s.fault ∧
    t.unknownOpcode = s.unknownOpcode) ∧
  ∃ t, State.reset.load "" = .ok t ∧ t.im = [] ∧ t.call = (.halted, t.clearRunning)

/-! ### Operands and memory -/

/-- R120: the effective address. -/
def Obligations.EffectiveAddressFormula : Prop :=
  ∀ s : State,
    ea .noMatch s = .ok 0 ∧
    (∀ off, ea (.regOff off 0) s = .ok off) ∧
    (∀ off (b : Fin 4), b ≠ 0 → ea (.regOff off b.val) s = .ok (off + unsigned (s.reg b))) ∧
    ∀ off b, 4 ≤ b → ea (.regOff off b) s = .error (.registerIndexFailure (.idx b))

/-- R42, R43: reads and writes of data memory at any integer address. -/
def Obligations.MemoryReadAndWrite : Prop :=
  ∀ (s : State) (addr : Int) (v : Word),
    (0 ≤ addr → addr ≤ 127 →
      memRead s addr = .ok (s.mem.read addr.toNat) ∧
      ∃ t, memWrite s addr v = .ok t ∧ memRead t addr = .ok v ∧
        SameMemoryExcept addr.toNat s t ∧ t.regs = s.regs ∧ t.pc = s.pc ∧ SameControl s t ∧
        SameProgram s t) ∧
    (addr < 0 ∨ 127 < addr →
      memRead s addr = .error (.addressOutOfRangeFailure addr) ∧
      memWrite s addr v = .error (.addressOutOfRangeFailure addr))

/-- Canonical memories that read alike at every address are equal data (the model's own form). -/
def Obligations.CanonicalMemoriesThatReadAlikeAreEqual : Prop :=
  ∀ m n : Memory, m.wf → n.wf → (∀ a, m.read a = n.read a) → m = n

/-! ### Instructions -/

/-- R123: `LDA`. -/
def Obligations.LdaLoadsTheWrappedAddress : Prop :=
  (∀ (d : RegSel) (a : AddrOp) (s : State),
    (∀ i v, regIdx d = .ok i → ea a s = .ok v → ∃ t, exec (.lda d a) s = .next t ∧
      t.reg i = toWord v ∧ SameRegsExcept i s t ∧ t.pc = s.pc ∧ SameControl s t ∧
      SameMemory s t ∧ SameProgram s t) ∧
    (∀ f, regIdx d = .error f → RaisesFault (.lda d a) s f) ∧
    ∀ i f, regIdx d = .ok i → ea a s = .error f → RaisesFault (.lda d a) s f) ∧
  (∀ w : Word, slice w 15 12 = 0 → decodeWord w =
    .lda (.idx (slice w 11 10)) (.regOff (sext8 (slice w 7 0)) (slice w 9 8))) ∧
  ∀ labels o0 o1 rest raw,
    decodeRecord labels { opcode := "LDA", operands := o0 :: o1 :: rest, raw := raw } =
      .instr (.lda (regToken o0) (addrToken o1))

/-- R124: `LD`. -/
def Obligations.LdLoadsTheCellOrFaults : Prop :=
  (∀ (d : RegSel) (a : AddrOp) (s : State),
    (∀ i v, regIdx d = .ok i → ea a s = .ok v → 0 ≤ v → v ≤ 127 →
      ∃ t, exec (.ld d a) s = .next t ∧
        t.reg i = s.mem.read v.toNat ∧ SameRegsExcept i s t ∧ t.pc = s.pc ∧ SameControl s t ∧
        SameMemory s t ∧ SameProgram s t) ∧
    (∀ i v, regIdx d = .ok i → ea a s = .ok v → v < 0 ∨ 127 < v →
      RaisesFault (.ld d a) s (.addressOutOfRangeFailure v)) ∧
    (∀ f, regIdx d = .error f → RaisesFault (.ld d a) s f) ∧
    ∀ i f, regIdx d = .ok i → ea a s = .error f → RaisesFault (.ld d a) s f) ∧
  (∀ w : Word, slice w 15 12 = 1 → decodeWord w =
    .ld (.idx (slice w 11 10)) (.regOff (sext8 (slice w 7 0)) (slice w 9 8))) ∧
  ∀ labels o0 o1 rest raw,
    decodeRecord labels { opcode := "LD", operands := o0 :: o1 :: rest, raw := raw } =
      .instr (.ld (regToken o0) (addrToken o1))

/-- R125: `ST`. -/
def Obligations.StStoresTheRegisterOrFaults : Prop :=
  (∀ (r : RegSel) (a : AddrOp) (s : State),
    (∀ i v, regIdx r = .ok i → ea a s = .ok v → 0 ≤ v → v ≤ 127 →
      ∃ t, exec (.st r a) s = .next t ∧
        t.mem.read v.toNat = s.reg i ∧ SameMemoryExcept v.toNat s t ∧ SameRegs s t ∧
        t.pc = s.pc ∧ SameControl s t ∧ SameProgram s t) ∧
    (∀ i v, regIdx r = .ok i → ea a s = .ok v → v < 0 ∨ 127 < v →
      RaisesFault (.st r a) s (.addressOutOfRangeFailure v)) ∧
    (∀ f, regIdx r = .error f → RaisesFault (.st r a) s f) ∧
    ∀ i f, regIdx r = .ok i → ea a s = .error f → RaisesFault (.st r a) s f) ∧
  (∀ w : Word, slice w 15 12 = 2 → decodeWord w =
    .st (.idx (slice w 11 10)) (.regOff (sext8 (slice w 7 0)) (slice w 9 8))) ∧
  ∀ labels o0 o1 rest raw,
    decodeRecord labels { opcode := "ST", operands := o0 :: o1 :: rest, raw := raw } =
      .instr (.st (regToken o0) (addrToken o1))

/-- R140: `ADD`. -/
def Obligations.AddWrapsAndNeverTraps : Prop :=
  (∀ (d a b : RegSel) (s : State),
    (∀ i j k, regIdx d = .ok i → regIdx a = .ok j → regIdx b = .ok k →
      ∃ t, exec (.add d a b) s = .next t ∧
        unsigned (t.reg i) = (unsigned (s.reg j) + unsigned (s.reg k)) % 65536 ∧
        SameRegsExcept i s t ∧ t.pc = s.pc ∧ SameControl s t ∧ SameMemory s t ∧ SameProgram s t) ∧
    (∀ f, regIdx d = .error f → RaisesFault (.add d a b) s f) ∧
    (∀ i f, regIdx d = .ok i → regIdx a = .error f → RaisesFault (.add d a b) s f) ∧
    ∀ i j f, regIdx d = .ok i → regIdx a = .ok j → regIdx b = .error f →
      RaisesFault (.add d a b) s f) ∧
  (∀ w : Word, slice w 15 12 = 3 → decodeWord w =
    .add (.idx (slice w 11 10)) (.idx (slice w 9 8)) (.idx (slice w 7 6))) ∧
  ∀ labels o0 o1 o2 rest raw,
    decodeRecord labels { opcode := "ADD", operands := o0 :: o1 :: o2 :: rest, raw := raw } =
      .instr (.add (regToken o0) (regToken o1) (regToken o2))

/-- R141: `SLT`. -/
def Obligations.SltComparesSigned : Prop :=
  (∀ (d a b : RegSel) (s : State),
    (∀ i j k, regIdx d = .ok i → regIdx a = .ok j → regIdx b = .ok k →
      ∃ t, exec (.slt d a b) s = .next t ∧
        t.reg i =
          (if toSigned (unsigned (s.reg j)) < toSigned (unsigned (s.reg k)) then 1 else 0) ∧
        SameRegsExcept i s t ∧ t.pc = s.pc ∧ SameControl s t ∧ SameMemory s t ∧ SameProgram s t) ∧
    (∀ f, regIdx d = .error f → RaisesFault (.slt d a b) s f) ∧
    (∀ i f, regIdx d = .ok i → regIdx a = .error f → RaisesFault (.slt d a b) s f) ∧
    ∀ i j f, regIdx d = .ok i → regIdx a = .ok j → regIdx b = .error f →
      RaisesFault (.slt d a b) s f) ∧
  (∀ w : Word, slice w 15 12 = 4 → decodeWord w =
    .slt (.idx (slice w 11 10)) (.idx (slice w 9 8)) (.idx (slice w 7 6))) ∧
  ∀ labels o0 o1 o2 rest raw,
    decodeRecord labels { opcode := "SLT", operands := o0 :: o1 :: o2 :: rest, raw := raw } =
      .instr (.slt (regToken o0) (regToken o1) (regToken o2))

/-- R161: `BZ`. -/
def Obligations.BzBranchesOnZero : Prop :=
  (∀ (c : RegSel) (g : BzTgt) (s : State),
    (∀ i k, regIdx c = .ok i → s.reg i = 0 → g = .known k →
      ∃ t, exec (.bz c g) s = .next t ∧ t.pc = k ∧ SameRegs s t ∧ SameControl s t ∧
        SameMemory s t ∧ SameProgram s t) ∧
    (∀ i, regIdx c = .ok i → s.reg i ≠ 0 →
      ∃ t, exec (.bz c g) s = .next t ∧ t.pc = s.pc ∧ SameRegs s t ∧ SameControl s t ∧
        SameMemory s t ∧ SameProgram s t) ∧
    (∀ i name, regIdx c = .ok i → s.reg i = 0 → g = .undefined name →
      RaisesFault (.bz c g) s (.undefinedLabelFailure name)) ∧
    ∀ f, regIdx c = .error f → RaisesFault (.bz c g) s f) ∧
  (∀ w : Word, slice w 15 12 = 5 → decodeWord w =
    .bz (.idx (slice w 11 10)) (.known (sext8 (slice w 7 0)))) ∧
  ∀ labels o0 o1 rest raw,
    decodeRecord labels { opcode := "BZ", operands := o0 :: o1 :: rest, raw := raw } =
      .instr (.bz (regToken o0) (bzToken labels o1))

/-- R162: `BAL`. The link is written first, the target resolved in the state that leaves, and a bad
base faults with the link already written. -/
def Obligations.BalLinksThenJumps : Prop :=
  (∀ (l : RegSel) (g : BalTgt) (s : State),
    (∀ i k, regIdx l = .ok i →
      (g = .known k ∨ ∃ a, g = .addr a ∧ ea a (s.setReg i (toWord s.pc)) = .ok k) →
      ∃ t, exec (.bal l g) s = .next t ∧ t.reg i = toWord s.pc ∧ t.pc = k ∧
        SameRegsExcept i s t ∧ SameControl s t ∧ SameMemory s t ∧ SameProgram s t) ∧
    (∀ f, regIdx l = .error f → RaisesFault (.bal l g) s f) ∧
    ∀ i a f, regIdx l = .ok i → g = .addr a → ea a (s.setReg i (toWord s.pc)) = .error f →
      ∃ t, exec (.bal l g) s = .next t ∧
        t.fault = some { kind := f, index := s.pc - 1 } ∧ t.reg i = toWord s.pc ∧
        SameRegsExcept i s t ∧ t.pc = s.pc ∧ t.running = s.running ∧ SameMemory s t ∧
        SameProgram s t) ∧
  (∀ w : Word, slice w 15 12 = 6 → decodeWord w =
    .bal (.idx (slice w 11 10)) (.addr (.regOff (sext8 (slice w 7 0)) (slice w 9 8)))) ∧
  ∀ labels o0 o1 rest raw,
    decodeRecord labels { opcode := "BAL", operands := o0 :: o1 :: rest, raw := raw } =
      .instr (.bal (regToken o0) (balToken labels o1))

/-- R163: the two spellings of an absolute `BAL` have the same effect in every state. -/
def Obligations.BalKnownTargetEqualsAbsoluteAddress : Prop :=
  ∀ (l : RegSel) (k : Int) (s : State),
    exec (.bal l (.known k)) s = exec (.bal l (.addr (.regOff k 0))) s

/-- R164: with the link register as base, the old value of the register plays no part. -/
def Obligations.BalWithLinkAsBase : Prop :=
  (∀ (r : Fin 4) (off : Int) (s : State), r ≠ 0 →
    ∃ t, exec (.bal (.idx r.val) (.addr (.regOff off r.val))) s = .next t ∧
      t.reg r = toWord s.pc ∧ t.pc = off + unsigned (toWord s.pc) ∧
      (off = 0 → 0 ≤ s.pc → s.pc ≤ 65535 → t.pc = s.pc)) ∧
  ∀ (off : Int) (s : State),
    ∃ t, exec (.bal (.idx 0) (.addr (.regOff off 0))) s = .next t ∧
      t.reg 0 = toWord s.pc ∧ t.pc = off

/-- R165: a `BAL` through `0($L)`, `$L` not `$0` and not its own link, returns to the instruction
after the `BAL` that linked `$L`; through `$0` it goes to index 0. -/
def Obligations.CallAndReturn : Prop :=
  ∀ (l l2 : Fin 4) (g : BalTgt) (s t u : State), l2 ≠ l →
    exec (.bal (.idx l.val) g) s = .next t → t.fault = none → 0 ≤ s.pc → s.pc ≤ 65535 →
    u.reg l = t.reg l →
    ∃ x, exec (.bal (.idx l2.val) (.addr (.regOff 0 l.val))) u = .next x ∧
      x.pc = (if l = 0 then 0 else s.pc) ∧ x.reg l2 = toWord u.pc

/-- R166: `HLT`, by any record or word that spells it. -/
def Obligations.HltClearsRunning : Prop :=
  (∀ s : State, ∃ t, exec .hlt s = .next t ∧ t.running = false ∧ t.pc = s.pc ∧
    t.fault = s.fault ∧ SameRegs s t ∧ SameMemory s t ∧ SameProgram s t) ∧
  (∀ w : Word, slice w 15 12 = 7 → decodeWord w = .hlt) ∧
  (∀ labels operands raw,
    decodeRecord labels { opcode := "HLT", operands := operands, raw := raw } = .instr .hlt) ∧
  ∀ s : State, Executes s .hlt →
    ∃ r t u, s.call = (.trace r, t) ∧ t.running = false ∧ t.pc = s.pc + 1 ∧
      t.call = (.halted, u) ∧ u = t

/-- R105, R197: an unrecognized opcode does nothing with `UNKNOWN_OPCODE = nop`, and raises
`UnrecognizedOpcode` with `fault`, whatever its tag. -/
def Obligations.UnrecognizedOpcodeFollowsTheParameter : Prop :=
  (∀ (tag : OpTag) (s : State),
    (s.unknownOpcode = .nop →
      ∃ t, exec (.unrecognized tag) s = .next t ∧ t.pc = s.pc ∧ SameRegs s t ∧ SameControl s t ∧
        SameMemory s t ∧ SameProgram s t) ∧
    (s.unknownOpcode = .fault →
      RaisesFault (.unrecognized tag) s (.unrecognizedOpcode tag))) ∧
  (∀ w : Word, 8 ≤ slice w 15 12 → decodeWord w = .unrecognized (.number (slice w 15 12))) ∧
  (∀ labels op operands raw,
    op ∉ ["LDA", "LD", "ST", "ADD", "SLT", "BZ", "BAL", "HLT"] →
    decodeRecord labels { opcode := op, operands := operands, raw := raw } =
      .instr (.unrecognized (.name op))) ∧
  ∀ (s : State) (tag : OpTag), Executes s (.unrecognized tag) → s.unknownOpcode = .nop →
    ∃ r, s.call = (.trace r, s.advancePc)

/-! ### The step -/

/-- R101 to R103: a step that fetches runs exactly what it decodes, from the state with `pc`
advanced by 1. -/
def Obligations.StepRunsTheDecodedInstruction : Prop :=
  ∀ (s : State) (si : StoredInstr), s.fault = none → s.running = true → 0 ≤ s.pc →
    s.im[s.pc.toNat]? = some si →
    (∀ i, decodeStored s.labels si = .instr i → step s = exec i { s with pc := s.pc + 1 }) ∧
    (∀ op n, decodeStored s.labels si = .short op n →
      step s = execDecoded (.short op n) { s with pc := s.pc + 1 }) ∧
    (∀ w, si = .word w → step s = exec (decodeWord w) { s with pc := s.pc + 1 })

/-- R100: halt detection. -/
def Obligations.HaltDetection : Prop :=
  ∀ s : State, s.fault = none →
    (s.running = false ∨ ¬ (0 ≤ s.pc ∧ s.pc < (s.im.length : Int)) →
      s.call = (.halted, { s with running := false }) ∧
      step s = .next { s with running := false } ∧
      (s.running = false → ({ s with running := false } : State) = s)) ∧
    (s.running = true → 0 ≤ s.pc → s.pc < (s.im.length : Int) → s.call.1 ≠ .halted)

/-- R108: after a fault every step is refused and nothing changes. -/
def Obligations.StepIsRefusedAfterAFault : Prop :=
  ∀ (s : State) (r : FaultRecord), s.fault = some r →
    step s = .refused (.faultLatched r) ∧ s.call = (.refused, s)

/-- R104: a step gives a trace record exactly when it executed an instruction that raised nothing,
and the record holds the index, the instruction and the registers after the effect. -/
def Obligations.TraceRecordContents : Prop :=
  ∀ s : State,
    (∀ si t, s.nextStored = some si → step s = .next t → t.fault = none →
      s.call = (.trace { pc := s.pc, instructionText := storedText si, registers :=
        [(t.reg 0).toNat, (t.reg 1).toNat, (t.reg 2).toNat, (t.reg 3).toNat] }, t)) ∧
    (∀ si t r, s.nextStored = some si → step s = .next t → t.fault = some r →
      s.call = (.fault r (storedText si), t)) ∧
    (s.nextStored = none → ∀ r, s.call.1 ≠ .trace r) ∧
    (Executes s .hlt → ∃ r, s.call.1 = .trace r)

/-- R12: a step of a machine without a latched fault always has a next state. -/
def Obligations.StepAnswersUnlessAFaultIsLatched : Prop :=
  ∀ s : State, (∃ t, step s = .next t) ↔ s.fault = none

/-- R26, R160: where a step that executes an instruction leaves `pc`. -/
def Obligations.ProgramCounterAfterAStep : Prop :=
  ∀ (s t : State) (i : Instr), Executes s i → step s = .next t →
    (t.fault ≠ none → t.pc = s.pc + 1) ∧
    ((∀ c g, i ≠ .bz c g) → (∀ l g, i ≠ .bal l g) → t.pc = s.pc + 1) ∧
    (∀ (c : Fin 4) k, i = .bz (.idx c.val) (.known k) →
      t.pc = if s.reg c = 0 then k else s.pc + 1) ∧
    (∀ l k, i = .bal l (.known k) → t.fault = none → t.pc = k) ∧
    ∀ l a, i = .bal l (.addr a) → t.fault = none → ea a t = .ok t.pc

/-- R107: a step that produces a trace record executes an instruction and changes at most the one
register R23 says it writes, or, if it is `ST`, the one cell it stores to and no register, and
`running` only by `HLT`. The cell is the effective address in the state with `pc` advanced. -/
def Obligations.StepChangesAtMostOneCellOrRegister : Prop :=
  ∀ (s t : State) (r : TraceRecord), s.call = (.trace r, t) →
    (∃ i, Executes s i) ∧ t.fault = none ∧ SameProgram s t ∧
    ∀ i, Executes s i →
      (regsWritten i).length ≤ 1 ∧ (∀ j, j ∉ regsWritten i → t.reg j = s.reg j) ∧
      (∀ src a, i = .st src a → SameRegs s t ∧
        (∃ v, StoresTo i s.advancePc v) ∧
        ∀ v, ea a s.advancePc = .ok v → 0 ≤ v ∧ v ≤ 127 ∧ SameMemoryExcept v.toNat s t) ∧
      ((∀ src a, i ≠ .st src a) → SameMemory s t) ∧
      (i = .hlt → t.running = false) ∧ (i ≠ .hlt → t.running = s.running)

/-- R28: `running` is true from reset; a step makes it false exactly when it executes `HLT` or begins
with `pc` out of bounds, and no step makes it true. -/
def Obligations.RunFlagIsClearedInTwoWays : Prop :=
  State.reset.running = true ∧
  ∀ s t : State, step s = .next t →
    (s.running = true →
      (t.running = false ↔
        Executes s .hlt ∨ ¬ (0 ≤ s.pc ∧ s.pc < (s.im.length : Int)))) ∧
    (s.running = false → t.running = false)

/-- R23: which registers an instruction reads and writes, as independence. Executed in two states
that differ in registers it does not read, an instruction writes the same value to the register it
writes, leaves every other register as it was, and has the same effect on everything else. -/
def Obligations.RegistersReadAndWritten : Prop :=
  (∀ (i : Instr) (s t : State), exec i s = .next t →
    ∀ j, j ∉ regsWritten i → t.reg j = s.reg j) ∧
  ∀ (i : Instr) (s t : State) (q : Regs), (∀ j ∈ regsRead i, q.get j = s.reg j) →
    exec i s = .next t →
    ∃ u, exec i { s with regs := q } = .next u ∧ u.pc = t.pc ∧ u.running = t.running ∧
      u.mem = t.mem ∧ u.fault = t.fault ∧ SameProgram t u ∧
      (s.fault = none → t.fault = none → ∀ j ∈ regsWritten i, u.reg j = t.reg j)

/-- R32, R47: only `ST` writes data memory, one cell, and only `LD` reads it. -/
def Obligations.OnlyStWritesAndOnlyLdReadsMemory : Prop :=
  (∀ a, State.reset.mem.read a = 0) ∧
  (∀ s t : State, step s = .next t → ∀ a : Nat, t.mem.read a ≠ s.mem.read a →
    ∃ i, Executes s i ∧ StoresTo i s.advancePc (a : Int)) ∧
  ∀ (i : Instr) (s t : State) (m : Memory), (∀ d a, i ≠ .ld d a) → exec i s = .next t →
    ∃ u, exec i (s.setMem m) = .next u ∧ u.regs = t.regs ∧ u.pc = t.pc ∧
      u.running = t.running ∧ u.fault = t.fault

/-- R126: a load from a cell gives what the last store to it stored, however many steps lie between,
if none of them stores there. -/
def Obligations.LoadSeesTheLastStore : Prop :=
  ∀ (s t u : State) (r : RegSel) (a : AddrOp) (i : Fin 4) (v : Int),
    regIdx r = .ok i → ea a s = .ok v → 0 ≤ v → v ≤ 127 → exec (.st r a) s = .next t →
    QuietSteps v t u →
    ∀ (d : RegSel) (b : AddrOp) (j : Fin 4), regIdx d = .ok j → ea b u.advancePc = .ok v →
      ∃ x, exec (.ld d b) u.advancePc = .next x ∧ x.reg j = s.reg i

/-- R33, R35: no run changes the instruction store, the label table or `UNKNOWN_OPCODE`. -/
def Obligations.ProgramIsNeverWritten : Prop :=
  ∀ s t : State, Reaches s t → SameProgram s t

/-- R167: no control transfer checks its target, and any instruction that leaves `pc` out of bounds,
`HLT` and faults aside, ends the run at the next step and not before. -/
def Obligations.OutOfBoundsTargetEndsTheRun : Prop :=
  (∀ (s : State) (c : Fin 4) (k : Int), Executes s (.bz (.idx c.val) (.known k)) → s.reg c = 0 →
    ∃ t, step s = .next t ∧ t.fault = none ∧ t.pc = k) ∧
  (∀ (s : State) (l : Fin 4) (k : Int), Executes s (.bal (.idx l.val) (.known k)) →
    ∃ t, step s = .next t ∧ t.fault = none ∧ t.pc = k) ∧
  (∀ (s : State) (l b : Fin 4) (off : Int),
    Executes s (.bal (.idx l.val) (.addr (.regOff off b.val))) →
    ∃ t, step s = .next t ∧ t.fault = none ∧ ea (.regOff off b.val) t = .ok t.pc) ∧
  ∀ (s t : State) (i : Instr), Executes s i → i ≠ .hlt → step s = .next t → t.fault = none →
    ¬ (0 ≤ t.pc ∧ t.pc < (t.im.length : Int)) →
    (∃ r, s.call = (.trace r, t)) ∧ t.running = true ∧
      t.call = (.halted, { t with running := false })

/-! ### Faults -/

/-- R188, R180: what a faulting step leaves: the record carries the instruction's own index, `pc` is
one past it, `running`, memory and the registers are unchanged, but for the link of a `BAL` with a
bad base. -/
def Obligations.StateAfterAFault : Prop :=
  ∀ (s t : State) (r : FaultRecord), s.fault = none → step s = .next t → t.fault = some r →
    r.index = s.pc ∧ t.pc = s.pc + 1 ∧ t.running = true ∧ s.running = true ∧ SameMemory s t ∧
    SameProgram s t ∧
    (SameRegs s t ∨
      ∃ l off b, 4 ≤ b ∧ Executes s (.bal (.idx l) (.addr (.regOff off b))) ∧
        r.kind = .registerIndexFailure (.idx b) ∧
        ∃ i : Fin 4, i.val = l ∧ t.reg i = toWord (s.pc + 1) ∧ SameRegsExcept i s t)

/-- R198: a machine whose store holds words raises only `AddressOutOfRangeFailure`, from `LD` and
`ST`, and, if enabled, `UnrecognizedOpcode`, from opcode numbers 8 to 15. -/
def Obligations.FaultsOfTheBinaryForm : Prop :=
  ∀ (s t : State) (r : FaultRecord), BinaryStore s → s.fault = none → step s = .next t →
    t.fault = some r →
    (∃ v, r.kind = .addressOutOfRangeFailure v ∧ (v < 0 ∨ 127 < v) ∧
      ((∃ d a, Executes s (.ld d a)) ∨ ∃ d a, Executes s (.st d a))) ∨
    ∃ n, r.kind = .unrecognizedOpcode (.number n) ∧ 8 ≤ n ∧ n ≤ 15 ∧
      s.unknownOpcode = .fault ∧ Executes s (.unrecognized (.number n))

/-- R29, R192, R166: a machine with a latched fault, or with `running` false, never changes again. -/
def Obligations.EndedMachineIsInert : Prop :=
  ∀ s t : State, (s.fault ≠ none ∨ s.running = false) → Reaches s t → t = s

/-- A machine in the binary form with `UNKNOWN_OPCODE = nop` and no `LD` and no `ST` in its store
never faults, whatever its registers, memory and `pc` (from R198). -/
def Obligations.ProgramWithoutMemoryAccessNeverFaults : Prop :=
  ∀ s : State, BinaryStore s → s.unknownOpcode = .nop → s.fault = none →
    (∀ w, StoredInstr.word w ∈ s.im → slice w 15 12 ≠ 1 ∧ slice w 15 12 ≠ 2) → SafeFrom s

/-! ### Reset, invariant, host interface -/

/-- R34: the state after reset, and after a reset event, which keeps the loaded program. -/
def Obligations.ResetValues : Prop :=
  ∀ s t : State, t = State.reset ∨ t = s.resetEvent →
    (∀ i, t.reg i = 0) ∧ (∀ a, t.mem.read a = 0) ∧ t.pc = 0 ∧ t.running = true ∧
    t.fault = none ∧ (t = s.resetEvent → SameProgram s t)

/-- The state after reset meets the invariant. -/
def Obligations.ResetMeetsTheInvariant : Prop := Inv State.reset

/-- Every step keeps the invariant: data memory stays canonical and inside its 128 words, and a
latched fault stands beside `running` true and a `pc` one past the faulting instruction (R188). -/
def Obligations.EveryStepKeepsTheInvariant : Prop :=
  ∀ s t : State, Inv s → step s = .next t → Inv t

/-- The driving loop (R109) produces at most one trace record a call, and stops early only at the end
of the run (R215). -/
def Obligations.DrivingLoopStopsOnlyAtTheEnd : Prop :=
  ∀ (n : Nat) (s : State),
    (drive n s).1.length ≤ n ∧
    ((drive n s).1.length < n → (drive n s).2.runEnd ≠ .notYet) ∧
    Reaches s (drive n s).2

/-- The model's own interface (log entries 7 and 16): `withFetchWord` makes the very next step run
the word's instruction, at the same place when `pc` is not negative. -/
def Obligations.PlacedWordIsRunByTheNextStep : Prop :=
  ∀ (s : State) (w : Nat), w < 65536 →
    step (s.withFetchWord 16 w) =
      exec (decodeWord (BitVec.ofNat 16 w)) (s.withFetchWord 16 w).advancePc ∧
    (s.withFetchWord 16 w).regs = s.regs ∧ (s.withFetchWord 16 w).mem = s.mem ∧
    (0 ≤ s.pc → (s.withFetchWord 16 w).pc = s.pc) ∧
    decodeTableWord 16 w = some (decodeWord (BitVec.ofNat 16 w))
end

