-- ==== Sys2Proof/Laws/Decode.lean ====
section
/-! SUPPORT. What the readers of tokens, opcodes and labels give. -/

namespace Sys2Proof

/-- A decimal digit by its code. -/
theorem isDecDigit_iff (c : Char) : isDecDigit c = true ↔ 48 ≤ c.toNat ∧ c.toNat ≤ 57 := by
  simp only [isDecDigit, decide_eq_true_eq, Char.le_def, UInt32.le_iff_toNat_le]
  exact Iff.rfl

theorem digitValue_le {c : Char} (h : isDecDigit c = true) : digitValue c ≤ 9 := by
  have := (isDecDigit_iff c).mp h
  simp only [digitValue]
  omega

/-- Only the eight opcode strings name an opcode. -/
theorem opcodeOf_eq_none_iff (s : String) :
    opcodeOf s = none ↔ s ∉ ["LDA", "LD", "ST", "ADD", "SLT", "BZ", "BAL", "HLT"] := by
  simp only [opcodeOf, List.mem_cons, List.not_mem_nil, or_false, not_or]
  constructor
  · intro h
    refine ⟨?_, ?_, ?_, ?_, ?_, ?_, ?_, ?_⟩ <;> rintro rfl <;> revert h <;> decide
  · rintro ⟨h1, h2, h3, h4, h5, h6, h7, h8⟩
    simp [h1, h2, h3, h4, h5, h6, h7, h8]

theorem labelLookup_append (t : LabelTable) (n : String) (k : Nat) (name : String) :
    labelLookup (t ++ [(n, k)]) name =
      match labelLookup t name with
      | some j => some j
      | none => if n = name then some k else none := by
  induction t with
  | nil => simp [labelLookup]
  | cons e t ih =>
    obtain ⟨m, j⟩ := e
    simp only [List.cons_append, labelLookup]
    split
    · rfl
    · exact ih

/-- Removing a name's entries leaves every other name as it was bound. -/
theorem labelLookup_filter (t : LabelTable) (n name : String) :
    labelLookup (t.filter (fun e => e.1 ≠ n)) name =
      if name = n then none else labelLookup t name := by
  induction t with
  | nil => simp [labelLookup]
  | cons e t ih =>
    obtain ⟨m, j⟩ := e
    simp only [List.filter_cons, ne_eq]
    by_cases hm : m = n
    · subst hm
      by_cases hn : name = m
      · simp_all
      · simp_all [labelLookup, Ne.symm hn]
    · by_cases hn : name = n
      · subst hn
        simp_all [labelLookup]
      · simp_all [labelLookup]

end Sys2Proof
end

