-- ==== Sys2Proof/Laws/State.lean ====
section
/-! SUPPORT. One lemma per field per update of the state, and the register file's own laws. -/

namespace Sys2Proof.Machine

section
variable (s : State)

@[simp] theorem State.setReg_regs (i : Fin 4) (v : Word) : (s.setReg i v).regs = s.regs.set i v := rfl
@[simp] theorem State.setReg_pc (i : Fin 4) (v : Word) : (s.setReg i v).pc = s.pc := rfl
@[simp] theorem State.setReg_running (i : Fin 4) (v : Word) : (s.setReg i v).running = s.running := rfl
@[simp] theorem State.setReg_mem (i : Fin 4) (v : Word) : (s.setReg i v).mem = s.mem := rfl
@[simp] theorem State.setReg_fault (i : Fin 4) (v : Word) : (s.setReg i v).fault = s.fault := rfl
@[simp] theorem State.setReg_im (i : Fin 4) (v : Word) : (s.setReg i v).im = s.im := rfl
@[simp] theorem State.setReg_labels (i : Fin 4) (v : Word) : (s.setReg i v).labels = s.labels := rfl
@[simp] theorem State.setReg_unknownOpcode (i : Fin 4) (v : Word) : (s.setReg i v).unknownOpcode = s.unknownOpcode := rfl

@[simp] theorem State.setMem_regs (m : Memory) : (s.setMem m).regs = s.regs := rfl
@[simp] theorem State.setMem_pc (m : Memory) : (s.setMem m).pc = s.pc := rfl
@[simp] theorem State.setMem_running (m : Memory) : (s.setMem m).running = s.running := rfl
@[simp] theorem State.setMem_mem (m : Memory) : (s.setMem m).mem = m := rfl
@[simp] theorem State.setMem_fault (m : Memory) : (s.setMem m).fault = s.fault := rfl
@[simp] theorem State.setMem_im (m : Memory) : (s.setMem m).im = s.im := rfl
@[simp] theorem State.setMem_labels (m : Memory) : (s.setMem m).labels = s.labels := rfl
@[simp] theorem State.setMem_unknownOpcode (m : Memory) : (s.setMem m).unknownOpcode = s.unknownOpcode := rfl

@[simp] theorem State.setPc_regs (k : Int) : (s.setPc k).regs = s.regs := rfl
@[simp] theorem State.setPc_pc (k : Int) : (s.setPc k).pc = k := rfl
@[simp] theorem State.setPc_running (k : Int) : (s.setPc k).running = s.running := rfl
@[simp] theorem State.setPc_mem (k : Int) : (s.setPc k).mem = s.mem := rfl
@[simp] theorem State.setPc_fault (k : Int) : (s.setPc k).fault = s.fault := rfl
@[simp] theorem State.setPc_im (k : Int) : (s.setPc k).im = s.im := rfl
@[simp] theorem State.setPc_labels (k : Int) : (s.setPc k).labels = s.labels := rfl
@[simp] theorem State.setPc_unknownOpcode (k : Int) : (s.setPc k).unknownOpcode = s.unknownOpcode := rfl

@[simp] theorem State.advancePc_regs : s.advancePc.regs = s.regs := rfl
@[simp] theorem State.advancePc_pc : s.advancePc.pc = s.pc + 1 := rfl
@[simp] theorem State.advancePc_running : s.advancePc.running = s.running := rfl
@[simp] theorem State.advancePc_mem : s.advancePc.mem = s.mem := rfl
@[simp] theorem State.advancePc_fault : s.advancePc.fault = s.fault := rfl
@[simp] theorem State.advancePc_im : s.advancePc.im = s.im := rfl
@[simp] theorem State.advancePc_labels : s.advancePc.labels = s.labels := rfl
@[simp] theorem State.advancePc_unknownOpcode : s.advancePc.unknownOpcode = s.unknownOpcode := rfl

@[simp] theorem State.clearRunning_regs : s.clearRunning.regs = s.regs := rfl
@[simp] theorem State.clearRunning_pc : s.clearRunning.pc = s.pc := rfl
@[simp] theorem State.clearRunning_running : s.clearRunning.running = false := rfl
@[simp] theorem State.clearRunning_mem : s.clearRunning.mem = s.mem := rfl
@[simp] theorem State.clearRunning_fault : s.clearRunning.fault = s.fault := rfl
@[simp] theorem State.clearRunning_im : s.clearRunning.im = s.im := rfl
@[simp] theorem State.clearRunning_labels : s.clearRunning.labels = s.labels := rfl
@[simp] theorem State.clearRunning_unknownOpcode : s.clearRunning.unknownOpcode = s.unknownOpcode := rfl

@[simp] theorem State.latchFault_regs (f : Fault) : (s.latchFault f).regs = s.regs := rfl
@[simp] theorem State.latchFault_pc (f : Fault) : (s.latchFault f).pc = s.pc := rfl
@[simp] theorem State.latchFault_running (f : Fault) : (s.latchFault f).running = s.running := rfl
@[simp] theorem State.latchFault_mem (f : Fault) : (s.latchFault f).mem = s.mem := rfl
@[simp] theorem State.latchFault_fault (f : Fault) : (s.latchFault f).fault = some { kind := f, index := s.pc - 1 } := rfl
@[simp] theorem State.latchFault_im (f : Fault) : (s.latchFault f).im = s.im := rfl
@[simp] theorem State.latchFault_labels (f : Fault) : (s.latchFault f).labels = s.labels := rfl
@[simp] theorem State.latchFault_unknownOpcode (f : Fault) : (s.latchFault f).unknownOpcode = s.unknownOpcode := rfl

end

/-! ### The register file -/

theorem Regs.get_set (r : Regs) (i j : Fin 4) (v : Word) :
    (r.set i v).get j = if j = i then v else r.get j := by
  match i, j with
  | 0, 0 | 0, 1 | 0, 2 | 0, 3 | 1, 0 | 1, 1 | 1, 2 | 1, 3
  | 2, 0 | 2, 1 | 2, 2 | 2, 3 | 3, 0 | 3, 1 | 3, 2 | 3, 3 => rfl

@[simp] theorem Regs.get_set_same (r : Regs) (i : Fin 4) (v : Word) : (r.set i v).get i = v := by
  simp [Regs.get_set]

theorem Regs.get_set_other (r : Regs) {i j : Fin 4} (h : j ≠ i) (v : Word) :
    (r.set i v).get j = r.get j := by
  simp [Regs.get_set, h]

/-- Register files that read the same are the same. -/
theorem Regs.ext_get {r q : Regs} (h : ∀ j, r.get j = q.get j) : r = q := by
  cases r; cases q
  have h0 := h 0; have h1 := h 1; have h2 := h 2; have h3 := h 3
  simp_all [Regs.get]

section
variable (s : State) (i j : Fin 4) (v : Word)

@[simp] theorem State.setReg_reg_same : (s.setReg i v).reg i = v := by simp [State.reg]

theorem State.setReg_reg : (s.setReg i v).reg j = if j = i then v else s.reg j := by
  simp [State.reg, Regs.get_set]

theorem State.setReg_reg_other (h : j ≠ i) : (s.setReg i v).reg j = s.reg j := by
  simp [State.setReg_reg, h]

@[simp] theorem State.setMem_reg (m : Memory) : (s.setMem m).reg j = s.reg j := rfl
@[simp] theorem State.setPc_reg (k : Int) : (s.setPc k).reg j = s.reg j := rfl
@[simp] theorem State.advancePc_reg : s.advancePc.reg j = s.reg j := rfl
@[simp] theorem State.clearRunning_reg : s.clearRunning.reg j = s.reg j := rfl
@[simp] theorem State.latchFault_reg (f : Fault) : (s.latchFault f).reg j = s.reg j := rfl

end

end Sys2Proof.Machine
end

