-- ==== Sys2Proof/Laws/Memory.lean ====
section
/-! SUPPORT. Data memory: what a read gives after a write, and that every memory operation keeps the
canonical form. -/

namespace Sys2Proof.Machine

namespace Memory

theorem read_erase (m : Memory) (a b : Nat) :
    (m.erase a).read b = if b = a then Config.unwrittenCell else m.read b := by
  induction m with
  | nil => simp [erase, read]
  | cons c m ih =>
    obtain ⟨k, w⟩ := c
    simp only [erase, List.filter_cons, ne_eq] at ih ⊢
    by_cases hk : k = a
    · subst hk
      by_cases hb : b = k
      · simp_all
      · simp_all [read, Ne.symm hb]
    · by_cases hb : b = k
      · simp_all [read]
      · simp_all [read, Ne.symm hb]

/-- An entry put in among entries of other addresses is what that address reads as. -/
theorem read_insert (m : Memory) (a b : Nat) (v : Word) (h : ∀ c ∈ m, c.1 ≠ a) :
    (m.insert a v).read b = if b = a then v else m.read b := by
  induction m with
  | nil => simp [insert, read, eq_comm]
  | cons c m ih =>
    obtain ⟨k, w⟩ := c
    have hk : k ≠ a := h (k, w) (by simp)
    have ih := ih (fun c hc => h c (by simp [hc]))
    simp only [insert]
    split
    · simp [read, eq_comm]
    · by_cases hb : k = b
      · subst hb
        simp [read, hk]
      · simp [read, hb, ih]

theorem mem_erase {m : Memory} {a : Nat} {c : Nat × Word} (h : c ∈ m.erase a) :
    c ∈ m ∧ c.1 ≠ a := by
  simpa [erase] using h

/-- Read after write, in any memory. -/
theorem read_write (m : Memory) (a b : Nat) (v : Word) :
    (m.write a v).read b = if b = a then v else m.read b := by
  simp only [write]
  split
  · next h => simp [read_erase, h]
  · rw [read_insert _ _ _ _ (fun c hc => (mem_erase hc).2), read_erase]
    split <;> rfl

@[simp] theorem read_write_same (m : Memory) (a : Nat) (v : Word) : (m.write a v).read a = v := by
  simp [read_write]

theorem read_write_other (m : Memory) {a b : Nat} (h : b ≠ a) (v : Word) :
    (m.write a v).read b = m.read b := by
  simp [read_write, h]

theorem mem_insert {m : Memory} {a : Nat} {v : Word} {c : Nat × Word} (h : c ∈ m.insert a v) :
    c = (a, v) ∨ c ∈ m := by
  induction m with
  | nil => simpa [insert] using h
  | cons d m ih =>
    simp only [insert] at h
    split at h
    · simpa using h
    · rcases List.mem_cons.mp h with h | h
      · simp [h]
      · rcases ih h with h | h <;> simp [h]

theorem erase_wf {m : Memory} (h : m.wf) (a : Nat) : (m.erase a).wf :=
  ⟨h.1.filter _, fun c hc => h.2 c (mem_erase hc).1⟩

theorem insert_wf {m : Memory} (h : m.wf) {a : Nat} {v : Word} (ha : a < Config.memWords)
    (hv : v ≠ Config.unwrittenCell) (hm : ∀ c ∈ m, c.1 ≠ a) : (m.insert a v).wf := by
  refine ⟨?_, fun c hc => ?_⟩
  · induction m with
    | nil => simp [insert]
    | cons d m ih =>
      have hs := List.pairwise_cons.mp h.1
      have htail : Memory.wf m := ⟨hs.2, fun c hc => h.2 c (by simp [hc])⟩
      simp only [insert]
      split
      · next hlt =>
        refine List.pairwise_cons.mpr ⟨fun c hc => ?_, h.1⟩
        rcases List.mem_cons.mp hc with rfl | hc
        · exact hlt
        · exact Nat.lt_trans hlt (hs.1 c hc)
      · next hge =>
        refine List.pairwise_cons.mpr ⟨fun c hc => ?_, ih htail (fun c hc => hm c (by simp [hc]))⟩
        rcases mem_insert hc with rfl | hc
        · have := hm d (by simp)
          show d.1 < a
          omega
        · exact hs.1 c hc
  · rcases mem_insert hc with rfl | hc
    · exact ⟨ha, hv⟩
    · exact h.2 c hc

/-- A write to one of the 128 cells keeps the canonical form. -/
theorem write_wf {m : Memory} (h : m.wf) {a : Nat} (ha : a < Config.memWords) (v : Word) :
    (m.write a v).wf := by
  simp only [write]
  split
  · exact erase_wf h a
  · next hv => exact insert_wf (erase_wf h a) ha hv (fun c hc => (mem_erase hc).2)

/-- Below its first entry a sorted memory holds nothing. -/
theorem read_of_lt {m : Memory} {a : Nat} (h : ∀ c ∈ m, a < c.1) :
    m.read a = Config.unwrittenCell := by
  induction m with
  | nil => rfl
  | cons c m ih =>
    obtain ⟨k, w⟩ := c
    have hk : a < k := h (k, w) (by simp)
    simp only [read]
    rw [if_neg (by omega)]
    exact ih (fun c hc => h c (by simp [hc]))

end Memory

/-- An address in range names one of the 128 cells. -/
theorem toNat_lt_memWords {v : Int} (h : inDataRange v) : v.toNat < Config.memWords := by
  have h0 := h.1
  have h1 := h.2
  show v.toNat < 128
  omega

/-- What a read of data memory answers. -/
theorem memRead_ok {s : State} {v : Int} {w : Word} (h : memRead s v = .ok w) :
    inDataRange v ∧ w = s.mem.read v.toNat := by
  simp only [memRead] at h
  split at h
  · next hr => exact ⟨hr, by simpa using h.symm⟩
  · cases h

theorem memRead_error {s : State} {v : Int} {f : Fault} (h : memRead s v = .error f) :
    ¬ inDataRange v ∧ f = .addressOutOfRangeFailure v := by
  simp only [memRead] at h
  split at h
  · cases h
  · next hr => exact ⟨hr, by simpa using h.symm⟩

theorem memWrite_ok {s t : State} {v : Int} {w : Word} (h : memWrite s v w = .ok t) :
    inDataRange v ∧ t = s.setMem (s.mem.write v.toNat w) := by
  simp only [memWrite] at h
  split at h
  · next hr => exact ⟨hr, by simpa using h.symm⟩
  · cases h

theorem memWrite_error {s : State} {v : Int} {w : Word} {f : Fault} (h : memWrite s v w = .error f) :
    ¬ inDataRange v ∧ f = .addressOutOfRangeFailure v := by
  simp only [memWrite] at h
  split at h
  · cases h
  · next hr => exact ⟨hr, by simpa using h.symm⟩

end Sys2Proof.Machine
end

