-- ==== Sys2Proof/Laws/Operands.lean ====
section
/-! SUPPORT. What the checked register index, the effective address and the lines of pseudocode that
use them can do. -/

namespace Sys2Proof.Machine

@[simp] theorem regIdx_idx (n : Nat) (h : n < 4) : regIdx (.idx n) = .ok ⟨n, h⟩ := by
  simp [regIdx, h]

@[simp] theorem regIdx_fin (i : Fin 4) : regIdx (.idx i.val) = .ok i := by simp [regIdx]

/-- A valid selector is `Idx(n)` with `n` at most 3. -/
theorem regIdx_ok {r : RegSel} {i : Fin 4} (h : regIdx r = .ok i) : r = .idx i.val := by
  cases r with
  | idx n =>
    simp only [regIdx] at h
    split at h
    · cases h; rfl
    · cases h
  | badReg => cases h

/-- A refused selector is reported as it stands. -/
theorem regIdx_error {r : RegSel} {f : Fault} (h : regIdx r = .error f) :
    f = .registerIndexFailure r ∧ ∀ n, r = .idx n → 4 ≤ n := by
  cases r with
  | idx n =>
    simp only [regIdx] at h
    split at h
    · cases h
    · cases h
      exact ⟨rfl, fun m hm => by cases hm; omega⟩
  | badReg => cases h; exact ⟨rfl, fun _ h => by cases h⟩

@[simp] theorem ea_noMatch (s : State) : ea .noMatch s = .ok 0 := rfl

@[simp] theorem ea_base_zero (off : Int) (s : State) : ea (.regOff off 0) s = .ok off := rfl

theorem ea_base (off : Int) (b : Nat) (hb : b ≠ 0) (h : b < 4) (s : State) :
    ea (.regOff off b) s = .ok (off + unsigned (s.reg ⟨b, h⟩)) := by
  match b, hb with
  | b + 1, _ => simp [ea, h]

/-- The effective address fails only on a base register 4 or more. -/
theorem ea_error {a : AddrOp} {s : State} {f : Fault} (h : ea a s = .error f) :
    ∃ off b, a = .regOff off b ∧ 4 ≤ b ∧ f = .registerIndexFailure (.idx b) := by
  match a with
  | .noMatch => cases h
  | .regOff off 0 => cases h
  | .regOff off (b + 1) =>
    simp only [ea] at h
    split at h
    · cases h
    · next g hg =>
      cases h
      have := regIdx_error hg
      exact ⟨off, b + 1, rfl, this.2 _ rfl, this.1⟩

/-- The effective address depends on the registers alone. -/
theorem ea_congr (a : AddrOp) {s t : State} (h : t.regs = s.regs) : ea a t = ea a s := by
  match a with
  | .noMatch => rfl
  | .regOff off 0 => rfl
  | .regOff off (b + 1) => simp [ea, State.reg, h]

section
variable {α : Type} (s t : State) (k : α → Outcome)

@[simp] theorem useValue_ok (v : α) : useValue (.ok v) s k = k v := rfl

@[simp] theorem useValue_error (f : Fault) : useValue (.error f) s k = raise f s := rfl

/-- A line of pseudocode that gives a value and ends in `t` either raised its fault or went on. -/
theorem useValue_next {e : Except Fault α} {s t : State} {k : α → Outcome}
    (h : useValue e s k = .next t) :
    (∃ f, e = .error f ∧ t = s.latchFault f) ∨ ∃ v, e = .ok v ∧ k v = .next t := by
  cases e with
  | ok v => exact .inr ⟨v, rfl, h⟩
  | error f =>
    simp only [useValue_error, raise, Host.Outcome.next.injEq] at h
    exact .inl ⟨f, rfl, h.symm⟩

end

end Sys2Proof.Machine
end

