-- ==== Sys2Proof/Laws/Meanings.lean ====
section
/-! SUPPORT. One inversion lemma per meaning: everything it can do when it answers a next state. -/

namespace Sys2Proof.Machine

section
variable {s t : State}

theorem execLda_cases {d : RegSel} {a : AddrOp} (h : execLda d a s = .next t) :
    (∃ f, t = s.latchFault f ∧
      (regIdx d = .error f ∨ ∃ i, regIdx d = .ok i ∧ ea a s = .error f)) ∨
    ∃ i v, regIdx d = .ok i ∧ ea a s = .ok v ∧ t = s.setReg i (toWord v) := by
  simp only [execLda, useReg, useEa] at h
  rcases useValue_next h with ⟨f, hf, rfl⟩ | ⟨i, hi, h⟩
  · exact .inl ⟨f, rfl, .inl hf⟩
  · rcases useValue_next h with ⟨f, hf, rfl⟩ | ⟨v, hv, h⟩
    · exact .inl ⟨f, rfl, .inr ⟨i, hi, hf⟩⟩
    · cases h
      exact .inr ⟨i, v, hi, hv, rfl⟩

theorem execLd_cases {d : RegSel} {a : AddrOp} (h : execLd d a s = .next t) :
    (∃ f, t = s.latchFault f ∧
      (regIdx d = .error f ∨ ∃ i, regIdx d = .ok i ∧
        (ea a s = .error f ∨ ∃ v, ea a s = .ok v ∧ memRead s v = .error f))) ∨
    ∃ i v, regIdx d = .ok i ∧ ea a s = .ok v ∧ inDataRange v ∧
      t = s.setReg i (s.mem.read v.toNat) := by
  simp only [execLd, useReg, useEa] at h
  rcases useValue_next h with ⟨f, hf, rfl⟩ | ⟨i, hi, h⟩
  · exact .inl ⟨f, rfl, .inl hf⟩
  · rcases useValue_next h with ⟨f, hf, rfl⟩ | ⟨v, hv, h⟩
    · exact .inl ⟨f, rfl, .inr ⟨i, hi, .inl hf⟩⟩
    · rcases useValue_next h with ⟨f, hf, rfl⟩ | ⟨w, hw, h⟩
      · exact .inl ⟨f, rfl, .inr ⟨i, hi, .inr ⟨v, hv, hf⟩⟩⟩
      · cases h
        obtain ⟨hr, rfl⟩ := memRead_ok hw
        exact .inr ⟨i, v, hi, hv, hr, rfl⟩

theorem execSt_cases {r : RegSel} {a : AddrOp} (h : execSt r a s = .next t) :
    (∃ f, t = s.latchFault f ∧
      (regIdx r = .error f ∨ ∃ i, regIdx r = .ok i ∧
        (ea a s = .error f ∨ ∃ v, ea a s = .ok v ∧ memWrite s v (s.reg i) = .error f))) ∨
    ∃ i v, regIdx r = .ok i ∧ ea a s = .ok v ∧ inDataRange v ∧
      t = s.setMem (s.mem.write v.toNat (s.reg i)) := by
  simp only [execSt, useReg, useEa] at h
  rcases useValue_next h with ⟨f, hf, rfl⟩ | ⟨i, hi, h⟩
  · exact .inl ⟨f, rfl, .inl hf⟩
  · rcases useValue_next h with ⟨f, hf, rfl⟩ | ⟨v, hv, h⟩
    · exact .inl ⟨f, rfl, .inr ⟨i, hi, .inl hf⟩⟩
    · rcases useValue_next h with ⟨f, hf, rfl⟩ | ⟨u, hu, h⟩
      · exact .inl ⟨f, rfl, .inr ⟨i, hi, .inr ⟨v, hv, hf⟩⟩⟩
      · cases h
        obtain ⟨hr, rfl⟩ := memWrite_ok hu
        exact .inr ⟨i, v, hi, hv, hr, rfl⟩

/-- Both three-register instructions: the fault of the first bad selector, or one register write. -/
theorem threeReg_cases {d a b : RegSel} {g : Word → Word → Word}
    (h : (useReg d s fun i => useReg a s fun j => useReg b s fun k =>
      .next (s.setReg i (g (s.reg j) (s.reg k)))) = .next t) :
    (∃ f, t = s.latchFault f ∧
      (regIdx d = .error f ∨ ∃ i, regIdx d = .ok i ∧
        (regIdx a = .error f ∨ ∃ j, regIdx a = .ok j ∧ regIdx b = .error f))) ∨
    ∃ i j k, regIdx d = .ok i ∧ regIdx a = .ok j ∧ regIdx b = .ok k ∧
      t = s.setReg i (g (s.reg j) (s.reg k)) := by
  simp only [useReg] at h
  rcases useValue_next h with ⟨f, hf, rfl⟩ | ⟨i, hi, h⟩
  · exact .inl ⟨f, rfl, .inl hf⟩
  · rcases useValue_next h with ⟨f, hf, rfl⟩ | ⟨j, hj, h⟩
    · exact .inl ⟨f, rfl, .inr ⟨i, hi, .inl hf⟩⟩
    · rcases useValue_next h with ⟨f, hf, rfl⟩ | ⟨k, hk, h⟩
      · exact .inl ⟨f, rfl, .inr ⟨i, hi, .inr ⟨j, hj, hf⟩⟩⟩
      · cases h
        exact .inr ⟨i, j, k, hi, hj, hk, rfl⟩

theorem execAdd_cases {d a b : RegSel} (h : execAdd d a b s = .next t) :
    (∃ f, t = s.latchFault f ∧
      (regIdx d = .error f ∨ ∃ i, regIdx d = .ok i ∧
        (regIdx a = .error f ∨ ∃ j, regIdx a = .ok j ∧ regIdx b = .error f))) ∨
    ∃ i j k, regIdx d = .ok i ∧ regIdx a = .ok j ∧ regIdx b = .ok k ∧
      t = s.setReg i (addWord (s.reg j) (s.reg k)) :=
  threeReg_cases (g := addWord) h

theorem execSlt_cases {d a b : RegSel} (h : execSlt d a b s = .next t) :
    (∃ f, t = s.latchFault f ∧
      (regIdx d = .error f ∨ ∃ i, regIdx d = .ok i ∧
        (regIdx a = .error f ∨ ∃ j, regIdx a = .ok j ∧ regIdx b = .error f))) ∨
    ∃ i j k, regIdx d = .ok i ∧ regIdx a = .ok j ∧ regIdx b = .ok k ∧
      t = s.setReg i (sltWord (s.reg j) (s.reg k)) :=
  threeReg_cases (g := sltWord) h

theorem execBz_cases {c : RegSel} {g : BzTgt} (h : execBz c g s = .next t) :
    (∃ f, t = s.latchFault f ∧
      (regIdx c = .error f ∨ ∃ i name, regIdx c = .ok i ∧ s.reg i = 0 ∧ g = .undefined name ∧
        f = .undefinedLabelFailure name)) ∨
    (∃ i k, regIdx c = .ok i ∧ s.reg i = 0 ∧ g = .known k ∧ t = s.setPc k) ∨
    ∃ i, regIdx c = .ok i ∧ s.reg i ≠ 0 ∧ t = s := by
  simp only [execBz, useReg] at h
  rcases useValue_next h with ⟨f, hf, rfl⟩ | ⟨i, hi, h⟩
  · exact .inl ⟨f, rfl, .inl hf⟩
  · by_cases hz : s.reg i = 0
    · simp only [isZeroWord, hz, decide_true, if_true] at h
      cases g with
      | known k =>
        cases h
        exact .inr (.inl ⟨i, k, hi, hz, rfl, rfl⟩)
      | undefined name =>
        cases h
        exact .inl ⟨_, rfl, .inr ⟨i, name, hi, hz, rfl, rfl⟩⟩
    · simp only [isZeroWord, hz, decide_false, Bool.false_eq_true, if_false] at h
      cases h
      exact .inr (.inr ⟨i, hi, hz, rfl⟩)

theorem execBal_cases {l : RegSel} {g : BalTgt} (h : execBal l g s = .next t) :
    (∃ f, regIdx l = .error f ∧ t = s.latchFault f) ∨
    ∃ i, regIdx l = .ok i ∧
      ((∃ k, g = .known k ∧ t = (s.setReg i (toWord s.pc)).setPc k) ∨
       ∃ a, g = .addr a ∧
        ((∃ v, ea a (s.setReg i (toWord s.pc)) = .ok v ∧
            t = (s.setReg i (toWord s.pc)).setPc v) ∨
         ∃ f, ea a (s.setReg i (toWord s.pc)) = .error f ∧
            t = (s.setReg i (toWord s.pc)).latchFault f)) := by
  simp only [execBal, useReg] at h
  rcases useValue_next h with ⟨f, hf, rfl⟩ | ⟨i, hi, h⟩
  · exact .inl ⟨f, hf, rfl⟩
  · refine .inr ⟨i, hi, ?_⟩
    cases g with
    | known k =>
      cases h
      exact .inl ⟨k, rfl, rfl⟩
    | addr a =>
      simp only [jumpTo, useEa] at h
      rcases useValue_next h with ⟨f, hf, rfl⟩ | ⟨v, hv, h⟩
      · exact .inr ⟨a, rfl, .inr ⟨f, hf, rfl⟩⟩
      · cases h
        exact .inr ⟨a, rfl, .inl ⟨v, hv, rfl⟩⟩

theorem execHlt_cases (h : execHlt s = .next t) : t = s.clearRunning := by
  cases h; rfl

theorem execUnrecognized_cases {tag : OpTag} (h : execUnrecognized tag s = .next t) :
    (s.unknownOpcode = .nop ∧ t = s) ∨
    (s.unknownOpcode = .fault ∧ t = s.latchFault (.unrecognizedOpcode tag)) := by
  simp only [execUnrecognized] at h
  split at h
  · next hu => cases h; exact .inl ⟨hu, rfl⟩
  · next hu => cases h; exact .inr ⟨hu, rfl⟩

end

/-- The shapes a next state of an instruction can have. -/
inductive Effect (s : State) : Instr → State → Prop where
  | fault {i : Instr} (f : Fault) (hi : i ≠ .hlt) : Effect s i (s.latchFault f)
  | register {i : Instr} (d : RegSel) (j : Fin 4) (w : Word) (hd : regIdx d = .ok j)
      (hi : (∃ a, i = .lda d a) ∨ (∃ a, i = .ld d a) ∨ (∃ a b, i = .add d a b) ∨
        ∃ a b, i = .slt d a b) :
      Effect s i (s.setReg j w)
  | store (r : RegSel) (a : AddrOp) (j : Fin 4) (v : Int) (hr : regIdx r = .ok j)
      (ha : ea a s = .ok v) (hv : inDataRange v) :
      Effect s (.st r a) (s.setMem (s.mem.write v.toNat (s.reg j)))
  | branch (c : RegSel) (k : Int) : Effect s (.bz c (.known k)) (s.setPc k)
  | notTaken (c : RegSel) (g : BzTgt) : Effect s (.bz c g) s
  | link (l : RegSel) (g : BalTgt) (j : Fin 4) (k : Int) (hl : regIdx l = .ok j) :
      Effect s (.bal l g) ((s.setReg j (toWord s.pc)).setPc k)
  | linkFault (l : RegSel) (off : Int) (b : Nat) (j : Fin 4) (hl : regIdx l = .ok j)
      (hb : 4 ≤ b) :
      Effect s (.bal l (.addr (.regOff off b)))
        ((s.setReg j (toWord s.pc)).latchFault (.registerIndexFailure (.idx b)))
  | halt : Effect s .hlt s.clearRunning
  | nop (tag : OpTag) : Effect s (.unrecognized tag) s

/-- Every next state of an instruction has one of those shapes. -/
theorem exec_effect {i : Instr} {s t : State} (h : exec i s = .next t) : Effect s i t := by
  cases i with
  | lda d a =>
    rcases execLda_cases h with ⟨f, rfl, -⟩ | ⟨j, v, hd, -, rfl⟩
    · exact .fault f (by simp)
    · exact .register d j _ hd (.inl ⟨a, rfl⟩)
  | ld d a =>
    rcases execLd_cases h with ⟨f, rfl, -⟩ | ⟨j, v, hd, -, -, rfl⟩
    · exact .fault f (by simp)
    · exact .register d j _ hd (.inr (.inl ⟨a, rfl⟩))
  | st r a =>
    rcases execSt_cases h with ⟨f, rfl, -⟩ | ⟨j, v, hr, ha, hv, rfl⟩
    · exact .fault f (by simp)
    · exact .store r a j v hr ha hv
  | add d a b =>
    rcases execAdd_cases h with ⟨f, rfl, -⟩ | ⟨j, _, _, hd, -, -, rfl⟩
    · exact .fault f (by simp)
    · exact .register d j _ hd (.inr (.inr (.inl ⟨a, b, rfl⟩)))
  | slt d a b =>
    rcases execSlt_cases h with ⟨f, rfl, -⟩ | ⟨j, _, _, hd, -, -, rfl⟩
    · exact .fault f (by simp)
    · exact .register d j _ hd (.inr (.inr (.inr ⟨a, b, rfl⟩)))
  | bz c g =>
    rcases execBz_cases h with ⟨f, rfl, -⟩ | ⟨_, k, -, -, rfl, rfl⟩ | ⟨_, -, -, rfl⟩
    · exact .fault f (by simp)
    · exact .branch c k
    · exact .notTaken c g
  | bal l g =>
    rcases execBal_cases h with ⟨f, -, rfl⟩ | ⟨j, hl, ⟨k, rfl, rfl⟩ | ⟨a, rfl, ht⟩⟩
    · exact .fault f (by simp)
    · exact .link l _ j k hl
    · rcases ht with ⟨v, -, rfl⟩ | ⟨f, hf, rfl⟩
      · exact .link l _ j v hl
      · obtain ⟨off, b, rfl, hb, rfl⟩ := ea_error hf
        exact .linkFault l off b j hl hb
  | hlt =>
    cases execHlt_cases h
    exact .halt
  | unrecognized tag =>
    rcases execUnrecognized_cases h with ⟨-, rfl⟩ | ⟨-, rfl⟩
    · exact .nop tag
    · exact .fault _ (by simp)

/-- Every use of a value answers a next state if what follows does. -/
theorem useValue_answers {α : Type} {e : Except Fault α} {s : State} {k : α → Outcome}
    (h : ∀ v, e = .ok v → ∃ t, k v = .next t) : ∃ t, useValue e s k = .next t := by
  cases e with
  | ok v => exact h v rfl
  | error f => exact ⟨_, rfl⟩

end Sys2Proof.Machine
end

