-- ==== Sys2Proof/Laws/PerInstr.lean ====
section
/-! SUPPORT. Statements made for every constructor of `Instr`. -/

namespace Sys2Proof

theorem RegSel.wf_of_encodable {r : RegSel} (h : r.encodable = true) : r.wf = true := by
  cases r with
  | idx n =>
    simp only [RegSel.encodable, RegSel.wf, decide_eq_true_eq] at h ⊢
    omega
  | badReg => rfl

theorem AddrOp.wf_of_encodable {a : AddrOp} (h : a.encodable = true) : a.wf = true := by
  cases a with
  | regOff off b =>
    simp only [AddrOp.encodable, AddrOp.wf, decide_eq_true_eq] at h ⊢
    omega
  | noMatch => rfl

namespace Laws.EncodableWellFormed

/-- An instruction with a binary form (R81) is within the ranges of the decoded-instruction type
(R70). -/
def Statement (i : Instr) : Prop := i.encodable = true → i.wf = true

theorem lda (d : RegSel) (a : AddrOp) : Statement (.lda d a) := by
  intro h
  simp only [Instr.encodable, Instr.wf, Bool.and_eq_true] at h ⊢
  exact ⟨RegSel.wf_of_encodable h.1, AddrOp.wf_of_encodable h.2⟩

theorem ld (d : RegSel) (a : AddrOp) : Statement (.ld d a) := by
  intro h
  simp only [Instr.encodable, Instr.wf, Bool.and_eq_true] at h ⊢
  exact ⟨RegSel.wf_of_encodable h.1, AddrOp.wf_of_encodable h.2⟩

theorem st (r : RegSel) (a : AddrOp) : Statement (.st r a) := by
  intro h
  simp only [Instr.encodable, Instr.wf, Bool.and_eq_true] at h ⊢
  exact ⟨RegSel.wf_of_encodable h.1, AddrOp.wf_of_encodable h.2⟩

theorem add (d a b : RegSel) : Statement (.add d a b) := by
  intro h
  simp only [Instr.encodable, Instr.wf, Bool.and_eq_true] at h ⊢
  exact ⟨⟨RegSel.wf_of_encodable h.1.1, RegSel.wf_of_encodable h.1.2⟩, RegSel.wf_of_encodable h.2⟩

theorem slt (d a b : RegSel) : Statement (.slt d a b) := by
  intro h
  simp only [Instr.encodable, Instr.wf, Bool.and_eq_true] at h ⊢
  exact ⟨⟨RegSel.wf_of_encodable h.1.1, RegSel.wf_of_encodable h.1.2⟩, RegSel.wf_of_encodable h.2⟩

theorem bz (c : RegSel) (t : BzTgt) : Statement (.bz c t) := by
  intro h
  simp only [Instr.encodable, Instr.wf, Bool.and_eq_true] at h ⊢
  exact RegSel.wf_of_encodable h.1

theorem bal (l : RegSel) (t : BalTgt) : Statement (.bal l t) := by
  intro h
  simp only [Instr.encodable, Instr.wf, Bool.and_eq_true] at h ⊢
  refine ⟨RegSel.wf_of_encodable h.1, ?_⟩
  cases t with
  | known k =>
    have hk := h.2
    simp only [BalTgt.encodable, BalTgt.wf, decide_eq_true_eq] at hk ⊢
    exact hk.1
  | addr a => exact AddrOp.wf_of_encodable h.2

theorem hlt : Statement .hlt := fun _ => rfl

theorem unrecognized (tag : OpTag) : Statement (.unrecognized tag) := by
  intro h
  cases tag with
  | number n => exact h
  | name s => cases h

end Laws.EncodableWellFormed

end Sys2Proof
end

