-- ==== Sys2Proof/Laws/Step.lean ====
section
/-! SUPPORT. What fetch and a step can do. -/

namespace Sys2Proof.Machine

/-- Fetch answers an instruction exactly when `pc` is in bounds. -/
theorem fetch_isSome_iff (s : State) : s.fetch.isSome = true ↔ s.pcInBounds := by
  simp only [State.fetch, State.pcInBounds]
  split
  · simp only [isSome_getElem?]
    omega
  · simp; omega

theorem fetch_eq_none_iff (s : State) : s.fetch = none ↔ ¬ s.pcInBounds := by
  rw [← fetch_isSome_iff]
  cases s.fetch <;> simp

/-- What a fetched instruction says of `pc`. -/
theorem fetch_some {s : State} {si : StoredInstr} (h : s.fetch = some si) :
    s.pcInBounds ∧ si ∈ s.im := by
  refine ⟨(fetch_isSome_iff s).mp (by simp [h]), ?_⟩
  simp only [State.fetch] at h
  split at h
  · exact List.mem_of_getElem? h
  · cases h

theorem nextStored_some {s : State} {si : StoredInstr} :
    s.nextStored = some si ↔ s.fault = none ∧ s.running = true ∧ s.fetch = some si := by
  simp only [State.nextStored]
  cases s.fault <;> cases s.running <;> simp

/-- Everything a step can do: refuse because a fault is latched, halt, or execute what it fetched. -/
theorem step_cases (s : State) :
    (∃ r, s.fault = some r ∧ s.nextStored = none ∧ step s = .refused (.faultLatched r)) ∨
    (s.fault = none ∧ (s.running = false ∨ ¬ s.pcInBounds) ∧ s.nextStored = none ∧
      step s = .next s.clearRunning) ∨
    ∃ si, s.nextStored = some si ∧ s.fault = none ∧ s.running = true ∧ s.pcInBounds ∧
      si ∈ s.im ∧ step s = execStored si s := by
  cases hf : s.fault with
  | some r => exact .inl ⟨r, rfl, by simp [State.nextStored, hf], by simp [step, hf]⟩
  | none =>
    cases hr : s.running with
    | false =>
      exact .inr (.inl ⟨rfl, .inl rfl, by simp [State.nextStored, hf, hr], by simp [step, hf, hr]⟩)
    | true =>
      cases hi : s.fetch with
      | none =>
        refine .inr (.inl ⟨rfl, .inr ((fetch_eq_none_iff s).mp hi), ?_, ?_⟩)
        · simp [State.nextStored, hf, hr, hi]
        · simp [step, hf, hr, hi]
      | some si =>
        have := fetch_some hi
        refine .inr (.inr ⟨si, nextStored_some.mpr ⟨hf, hr, hi⟩, rfl, rfl, this.1, this.2, ?_⟩)
        simp [step, hf, hr, hi]

/-- A step that answers a next state halted, raised `OperandArityFailure`, or executed one
instruction, all from a state without a latched fault. -/
theorem step_next_cases {s t : State} (h : step s = .next t) :
    s.fault = none ∧
    ((s.nextStored = none ∧ (s.running = false ∨ ¬ s.pcInBounds) ∧ t = s.clearRunning) ∨
     ∃ si, s.nextStored = some si ∧ s.running = true ∧ s.pcInBounds ∧ si ∈ s.im ∧
      ((∃ op n, decodeStored s.labels si = .short op n ∧
          t = s.advancePc.latchFault (.operandArityFailure op)) ∨
       ∃ i, decodeStored s.labels si = .instr i ∧ exec i s.advancePc = .next t)) := by
  rcases step_cases s with ⟨r, -, -, hs⟩ | ⟨hf, hr, hn, hs⟩ | ⟨si, hn, hf, hr, hb, hm, hs⟩
  · rw [hs] at h; cases h
  · rw [hs] at h; cases h
    exact ⟨hf, .inl ⟨hn, hr, rfl⟩⟩
  · refine ⟨hf, .inr ⟨si, hn, hr, hb, hm, ?_⟩⟩
    rw [hs] at h
    simp only [execStored] at h
    cases hd : decodeStored s.labels si with
    | instr i =>
      rw [hd] at h
      exact .inr ⟨i, rfl, h⟩
    | short op n =>
      rw [hd] at h
      cases h
      exact .inl ⟨op, n, rfl, rfl⟩

end Sys2Proof.Machine
end

