-- ==== Sys2Proof/Laws/Word.lean ====
section
/-! SUPPORT. The word functions reduced to integer arithmetic, and bit fields to quotient and
remainder. -/

namespace Sys2Proof

@[simp] theorem unsigned_toWord (v : Int) : unsigned (toWord v) = v % 65536 := by
  simp only [unsigned, toWord, BitVec.toNat_ofNat]
  omega

theorem unsigned_nonneg (w : Word) : 0 ≤ unsigned w := by simp [unsigned]

theorem unsigned_lt (w : Word) : unsigned w < 65536 := by
  have h := w.isLt
  simp only [unsigned]
  omega

theorem unsigned_inj {u v : Word} (h : unsigned u = unsigned v) : u = v := by
  apply BitVec.eq_of_toNat_eq
  simpa [unsigned] using h

@[simp] theorem toWord_unsigned (w : Word) : toWord (unsigned w) = w := by
  apply unsigned_inj
  have h0 := unsigned_nonneg w
  have h1 := unsigned_lt w
  rw [unsigned_toWord]
  omega

/-- Words are equal exactly when their values agree modulo 65536. -/
theorem toWord_eq_toWord {u v : Int} : toWord u = toWord v ↔ u % 65536 = v % 65536 := by
  constructor
  · intro h
    simpa using congrArg unsigned h
  · intro h
    exact unsigned_inj (by simpa using h)

@[simp] theorem toWord_emod (v : Int) : toWord (v % 65536) = toWord v := by
  rw [toWord_eq_toWord]
  omega

/-- The signed reading by integer arithmetic alone. -/
theorem toSigned_eq (v : Int) :
    toSigned v = if 32768 ≤ v % 65536 then v % 65536 - 65536 else v % 65536 := by
  simp [toSigned]

@[simp] theorem toSigned_emod (v : Int) : toSigned (v % 65536) = toSigned v := by
  simp [toSigned]

/-- The signed reading of a stored word. -/
theorem toSigned_unsigned (u : Word) :
    toSigned (unsigned u) = if 32768 ≤ unsigned u then unsigned u - 65536 else unsigned u := by
  simp [toSigned]

theorem toSigned_bounds (v : Int) : -32768 ≤ toSigned v ∧ toSigned v ≤ 32767 := by
  rw [toSigned_eq]
  split <;> omega

theorem slice_lt (w : Word) (hi lo : Nat) : slice w hi lo < 2 ^ (hi - lo + 1) :=
  Nat.mod_lt _ (Nat.two_pow_pos _)

/-- A word is its fields put together (R74). -/
theorem slice_fields (w : Word) :
    slice w 15 12 * 4096 + slice w 11 10 * 1024 + slice w 9 8 * 256 + slice w 7 0 = w.toNat := by
  have h := w.isLt
  simp only [slice, Nat.reduceSub, Nat.reduceAdd, Nat.reducePow]
  omega

theorem slice_15_6 (w : Word) :
    slice w 15 6 = slice w 15 12 * 64 + slice w 11 10 * 16 + slice w 9 8 * 4 + slice w 7 6 := by
  have h := w.isLt
  simp only [slice, Nat.reduceSub, Nat.reduceAdd, Nat.reducePow]
  omega

theorem slice_15_10 (w : Word) : slice w 15 10 = slice w 15 12 * 4 + slice w 11 10 := by
  have h := w.isLt
  simp only [slice, Nat.reduceSub, Nat.reduceAdd, Nat.reducePow]
  omega

end Sys2Proof
end

