-- ==== Sys2Proof/Tests/Slice0.lean ====
section
/-! SUPPORT. Tests. Expected results are the spec's own vectors (`95_test_vectors.md`, named by their
ids) or worked by hand from the rules. The second part shows, for each statement with hypotheses, a
state and operands that meet them. -/

namespace Sys2Proof.Tests

open Sys2Proof.Machine

/-! ### Small states -/

/-- An executing machine: `pc` is already one past the instruction (R102). -/
def at_ (pc : Int) (x0 x1 x2 x3 : Word) : State :=
  { State.reset with pc := pc, regs := { x0 := x0, x1 := x1, x2 := x2, x3 := x3 } }

/-- A machine in the binary form, before its first step. -/
def words (ws : List Word) : State := State.reset.loadWords ws

/-- A machine in the source form with one record, before its first step. -/
def record (opcode : String) (operands : List String) : State :=
  { State.reset with im := [.record { opcode := opcode, operands := operands, raw := opcode }] }

/-- A field of the next state of an outcome. -/
def field {α : Type} (o : Outcome) (f : State → α) : Option α := (nextState o).map f

/-! ### Decoding (R74, R75: words written out bit by bit) -/

theorem test_decode_lda : decodeWord 0b0000110001000000 = .lda (.idx 3) (.regOff 64 0) := by decide
theorem test_decode_ld : decodeWord 0b0001101100000000 = .ld (.idx 2) (.regOff 0 3) := by decide
theorem test_decode_st : decodeWord 0b0010011100000000 = .st (.idx 1) (.regOff 0 3) := by decide
theorem test_decode_add : decodeWord 0b0011111101111111 = .add (.idx 3) (.idx 3) (.idx 1) := by
  decide
theorem test_decode_slt : decodeWord 0b0100001011000000 = .slt (.idx 0) (.idx 2) (.idx 3) := by
  decide
theorem test_decode_bz : decodeWord 0b0101010011111111 = .bz (.idx 1) (.known (-1)) := by decide
theorem test_decode_bal :
    decodeWord 0b0110101111111011 = .bal (.idx 2) (.addr (.regOff (-5) 3)) := by decide
theorem test_decode_hlt : decodeWord 0b0111101010111100 = .hlt := by decide
theorem test_decode_unrecognized : decodeWord 0b1000000000000000 = .unrecognized (.number 8) := by
  decide
theorem test_decodeTableWord : decodeTableWord 16 0x0FFE = some (.lda (.idx 3) (.regOff (-2) 3)) ∧
    decodeTableWord 17 0 = none := by decide
theorem test_encode : encode (.bal (.idx 2) (.known 4)) = some 0x6804 ∧
    encode (.lda (.idx 3) (.regOff (-2) 3)) = some 0x0FFE ∧
    encode (.lda (.idx 3) (.regOff 128 3)) = none := by decide

/-- Section 2.3 of the vectors. -/
theorem test_register_tokens :
    regToken "$0" = .idx 0 ∧ regToken "$9" = .idx 9 ∧ regToken "$12" = .badReg ∧
    regToken "r1" = .badReg ∧ regToken "$" = .badReg := by decide

/-- Section 2.3 of the vectors. -/
theorem test_address_tokens :
    addrToken "-2($3)" = .regOff (-2) 3 ∧ addrToken "007($1)" = .regOff 7 1 ∧
    addrToken "70000($0)" = .regOff 70000 0 ∧ addrToken "+5($1)" = .noMatch ∧
    addrToken "5($12)" = .noMatch ∧ addrToken "($1)" = .noMatch ∧ addrToken "5($1)x" = .noMatch := by
  decide

/-- Section 2.3 of the vectors, and V-BAL-12. -/
theorem test_decode_records :
    decodeRecord [] { opcode := "ADD", operands := ["$1", "$2"], raw := "" } = .short .add 2 ∧
    decodeRecord [] { opcode := "HLT", operands := ["$1"], raw := "" } = .instr .hlt ∧
    decodeRecord [] { opcode := "NOP", operands := [], raw := "" } =
      .instr (.unrecognized (.name "NOP")) ∧
    decodeRecord [("3($1)", 5)] { opcode := "BAL", operands := ["$2", "3($1)"], raw := "" } =
      .instr (.bal (.idx 2) (.known 5)) := by decide

/-! ### WellFormed: an ill-formed term for each check -/

theorem test_wf_register_range : (Instr.add (.idx 10) (.idx 0) (.idx 0)).wf = false := by decide
theorem test_wf_base_range : (Instr.ld (.idx 0) (.regOff 0 10)).wf = false := by decide
theorem test_wf_bal_target : (Instr.bal (.idx 0) (.known (-1))).wf = false := by decide
theorem test_wf_tag_number : (Instr.unrecognized (.number 7)).wf = false ∧
    (Instr.unrecognized (.number 16)).wf = false := by decide
theorem test_wf_tag_name : (Instr.unrecognized (.name "LDA")).wf = false := by decide
theorem test_encodable_register : (Instr.add (.idx 4) (.idx 0) (.idx 0)).encodable = false ∧
    (Instr.bz .badReg (.known 0)).encodable = false := by decide
theorem test_encodable_address : (Instr.lda (.idx 0) (.regOff 128 0)).encodable = false ∧
    (Instr.lda (.idx 0) (.regOff (-129) 0)).encodable = false ∧
    (Instr.lda (.idx 0) (.regOff 0 4)).encodable = false ∧
    (Instr.lda (.idx 0) .noMatch).encodable = false := by decide
theorem test_encodable_bz_target : (Instr.bz (.idx 0) (.known 128)).encodable = false ∧
    (Instr.bz (.idx 0) (.undefined "x")).encodable = false := by decide
theorem test_encodable_bal_target : (Instr.bal (.idx 0) (.known 128)).encodable = false ∧
    (Instr.bal (.idx 0) (.known (-1))).encodable = false := by decide
theorem test_encodable_tag : (Instr.unrecognized (.name "NOP")).encodable = false := by decide

/-! ### Instructions -/

/-- V-LDA-4, V-LDA-6. -/
theorem test_lda :
    field (exec (.lda (.idx 3) (.regOff (-2) 3)) (at_ 1 0 0 0 0)) (·.reg 3) = some 0xFFFE ∧
    field (exec (.lda (.idx 1) (.regOff 7 0)) (at_ 1 1 0 0 0)) (·.reg 1) = some 7 := by decide

/-- V-LD-3 (base read before the destination is written), V-LD-6 (no wrap). -/
theorem test_ld :
    field (exec (.ld (.idx 3) (.regOff 0 3)) ((at_ 1 0 0 0 5).setMem [(5, 9)])) (·.reg 3) = some 9 ∧
    field (exec (.ld (.idx 2) (.regOff 1 3)) (at_ 4 0 0 0 0xFFFF)) (·.fault) =
      some (some { kind := .addressOutOfRangeFailure 65536, index := 3 }) := by decide

/-- V-ST-2, V-ST-5. -/
theorem test_st :
    field (exec (.st (.idx 0) (.regOff 5 0)) (at_ 1 7 0 0 0)) (·.mem) = some [(5, 7)] ∧
    field (exec (.st (.idx 3) (.regOff 0 3)) (at_ 1 0 0 0 128)) (·.fault) =
      some (some { kind := .addressOutOfRangeFailure 128, index := 0 }) := by decide

/-- V-ADD-2, V-ADD-10. -/
theorem test_add :
    field (exec (.add (.idx 0) (.idx 1) (.idx 2)) (at_ 1 5 0xFFFF 1 0)) (·.reg 0) = some 0 ∧
    field (exec (.add (.idx 1) (.idx 2) (.idx 0)) (at_ 1 1 0 10 0)) (·.reg 1) = some 11 := by decide

/-- V-SLT-2, V-SLT-11. -/
theorem test_slt :
    field (exec (.slt (.idx 0) (.idx 1) (.idx 2)) (at_ 1 9 1 0xFFFF 0)) (·.reg 0) = some 0 ∧
    field (exec (.slt (.idx 1) (.idx 1) (.idx 2)) (at_ 1 0 0xFFFF 0 0)) (·.reg 1) = some 1 := by
  decide

/-- V-BZ-1, V-BZ-3, V-BZ-6. -/
theorem test_bz :
    field (exec (.bz (.idx 1) (.known 6)) (at_ 3 0 0 0 0)) (·.pc) = some 6 ∧
    field (exec (.bz (.idx 1) (.known 6)) (at_ 3 0 0x8000 0 0)) (·.pc) = some 3 ∧
    field (exec (.bz (.idx 1) (.undefined "nowhere")) (at_ 3 0 0 0 0)) (·.fault) =
      some (some { kind := .undefinedLabelFailure "nowhere", index := 2 }) := by decide

/-- V-BAL-4 (link equal to base), V-BAL-8 (not masked). -/
theorem test_bal_target :
    field (exec (.bal (.idx 2) (.addr (.regOff 0 2))) (at_ 2 0 0 9 0)) (·.pc) = some 2 ∧
    field (exec (.bal (.idx 2) (.addr (.regOff 1 3))) (at_ 3 0 0 0 0xFFFF)) (·.pc) =
      some 65536 := by decide

/-- V-BAL-11: the link is written before the base faults. -/
theorem test_bal_fault :
    field (exec (.bal (.idx 1) (.addr (.regOff 0 7))) (at_ 3 0 0 0 0)) (fun t => (t.reg 1, t.fault)) =
      some (3, some { kind := .registerIndexFailure (.idx 7), index := 2 }) := by decide

/-- V-HLT-1. -/
theorem test_hlt :
    field (exec .hlt (at_ 4 0 0 0 0)) (fun t => (t.pc, t.running)) = some (4, false) := by decide

/-- V-UNK-1, V-UNK-2. -/
theorem test_unrecognized :
    (words [0x8000]).call =
      (.trace { pc := 0, instructionText := .word 0x8000, registers := [0, 0, 0, 0] },
        (words [0x8000]).advancePc) ∧
    field (step { words [0x8000] with unknownOpcode := .fault }) (fun t => (t.pc, t.fault)) =
      some (1, some { kind := .unrecognizedOpcode (.number 8), index := 0 }) := by decide

/-- V-BZ-11. -/
theorem test_short :
    field (step (record "BZ" ["$1"])) (fun t => (t.pc, t.fault)) =
      some (1, some { kind := .operandArityFailure .bz, index := 0 }) := by decide

/-! ### Step, parser and host interface -/

/-- V-END-2, V-FLT-1. -/
theorem test_call_ends :
    (words []).call = (.halted, (words []).clearRunning) ∧
    ((at_ 1 0 0 0 0).latchFault (.operandArityFailure .bz)).call =
      (.refused, (at_ 1 0 0 0 0).latchFault (.operandArityFailure .bz)) := by decide

/-- Program P6 by the driving loop. -/
theorem test_drive :
    (drive 2 (words [0x7000])).1 =
      [{ pc := 0, instructionText := .word 0x7000, registers := [0, 0, 0, 0] }] ∧
    (drive 2 (words [0x7000])).2.runEnd = .normal := by decide

/-- S5, with R89 (opcode upper-cased) and a comment. -/
theorem test_parse_label_line :
    parseProgram "lda $1,1($0) ; one\nhere:\n\nHLT" =
      { records := [{ opcode := "LDA", operands := ["$1", "1($0)"], raw := "lda $1,1($0)" }, { opcode := "HLT", operands := [], raw := "HLT" }], labels := [("here", 1)] } := by decide

/-- R88: the last definition wins. R90: a label at the end is bound to `N`. -/
theorem test_parse_duplicate_label :
    (parseProgram "a: HLT\na:").labels = [("a", 1)] := by decide

theorem test_memSnapshot : ((at_ 0 0 0 0 0).setMem [(5, 9)]).memSnapshot[5]? = some 9 := by decide

theorem test_withFetchWord :
    field (step (State.reset.withFetchWord 16 0x04FF)) (·.reg 1) = some 0xFFFF := by decide

theorem test_core_step : (Sys2Proof.core.step Sys2Proof.core.reset) =
    .next State.reset.clearRunning := rfl

/-! ### Witnesses: the hypotheses of each statement are met -/

theorem witness_WordArithmeticLaws :
    (toSigned (unsigned 0x7FFF) + toSigned (unsigned 0) ≤ 32767) ∧
    ¬ (toSigned (unsigned 0x7FFF) + toSigned (unsigned 1) ≤ 32767) ∧
    sltWord 0x8000 0xFFFF = 1 ∧ sltWord 0xFFFF 0 = 1 ∧ (0 : Word) ≠ 1 := by decide

theorem witness_DecoderFollowsOpcodeTable :
    slice 0x0FFF 15 12 = 0 ∧ slice 0x1FFF 15 12 = 1 ∧ slice 0x2FFF 15 12 = 2 ∧
    slice 0x3FFF 15 12 = 3 ∧ slice 0x4FFF 15 12 = 4 ∧ slice 0x5FFF 15 12 = 5 ∧
    slice 0x6FFF 15 12 = 6 ∧ slice 0x7FFF 15 12 = 7 ∧ 8 ≤ slice 0x8000 15 12 := by decide

/-- Boundary operands. Of the last word, bits 11:0 are the model's choice (log entry 23). -/
theorem witness_DecodeOfEncodeIsTheInstruction :
    encode (.bal (.idx 3) (.known 127)) = some 0x6C7F ∧
    encode (.lda (.idx 3) (.regOff (-128) 3)) = some 0x0F80 ∧
    encode (.unrecognized (.number 15)) = some 0xF000 := by decide

theorem witness_DecodersGiveWellFormedInstructions :
    decodeRecord [] { opcode := "LD", operands := ["$9", "5($9)"], raw := "" } =
      .instr (.ld (.idx 9) (.regOff 5 9)) := by decide

theorem witness_RegisterTokenShape :
    "$9".toList = ['$', '9'] ∧ '0' ≤ '9' ∧ "$12".toList = ['$', '1', '2'] := by decide

theorem witness_AddressTokenShape :
    "-07($9)".toList = (if true then ['-'] else []) ++ ['0', '7'] ++ ['(', '$', '9', ')'] ∧
    (∀ d ∈ ['0', '7'], '0' ≤ d ∧ d ≤ '9') ∧ addrToken "-07($9)" ≠ .noMatch :=
  ⟨rfl, by simp, by decide⟩

theorem witness_BranchTokenResolution :
    labelLookup [("a", 0)] "a" = some 0 ∧ labelLookup [("a", 0)] "A" = none := by decide

theorem witness_RecordDecoding :
    ["$1", "$2"].length < 3 ∧ "lda" ∉ ["LDA", "LD", "ST", "ADD", "SLT", "BZ", "BAL", "HLT"] := by decide

theorem witness_TooFewOperandsFault :
    opcodeOf "ADD" = some .add ∧ ["$1", "$2"].length < requiredOperands .add ∧
    requiredOperands .add ≤ ["$1", "$2", "$3"].length := by decide

theorem witness_CommentsAndBlankLinesChangeNothing :
    ';' ∉ ['H', 'L', 'T', ' '] ∧ (∀ c ∈ [' ', '\t'], isSpace c = true) := by
  simp [isSpace]

/-- The line `bz ,$1 x` with the label `L`. -/
theorem witness_LineGivesItsRecordAndLabel :
    (∀ t ∈ [['b', 'z'], ['$', '1'], ['x']], t ≠ [] ∧
      ∀ c ∈ t, c ≠ ';' ∧ c ≠ ':' ∧ isSeparator c = false) ∧
    (∀ sep ∈ [[' ', ','], ['\t']], sep ≠ [] ∧ ∀ c ∈ sep, isSeparator c = true) ∧
    (∀ c ∈ ['L'], c ≠ ';' ∧ c ≠ ':' ∧ isSpace c = false) := by
  simp [isSeparator, isSpace]

theorem witness_LastLabelDefinitionWins :
    ("b" : String) ≠ "a" ∧ (([("a", 0), ("b", 1)] : LabelTable).map Prod.fst).Nodup := by decide

theorem witness_ParsedLabelsStayWithinProgram :
    labelLookup (parseProgram "HLT\nend:").labels "end" = some 1 := by decide

theorem witness_EffectiveAddressFormula : (1 : Fin 4) ≠ 0 ∧ (3 : Fin 4) ≠ 0 ∧ 4 ≤ 4 := by decide

theorem witness_MemoryReadAndWrite :
    ((0 : Int) ≤ 0 ∧ (0 : Int) ≤ 127) ∧ ((0 : Int) ≤ 127 ∧ (127 : Int) ≤ 127) ∧
    ((-1 : Int) < 0 ∨ (127 : Int) < -1) ∧ ((128 : Int) < 0 ∨ (127 : Int) < 128) := by decide

theorem witness_CanonicalMemoriesThatReadAlikeAreEqual :
    Memory.wf [(0, 1), (127, 0xFFFF)] ∧ ¬ Memory.wf [(1, 1), (0, 1)] ∧ ¬ Memory.wf [(0, 0)] ∧
    ¬ Memory.wf [(128, 1)] := by decide

/-- The operand hypotheses shared by `LDA`, `LD`, `ST`, `ADD`, `SLT`, `BZ` and `BAL`: valid and refused
selectors, addresses that resolve and that do not. -/
theorem witness_operands :
    regIdx (.idx 3) = .ok 3 ∧ regIdx (.idx 4) = .error (.registerIndexFailure (.idx 4)) ∧
    ea (.regOff 127 0) (at_ 1 9 0 0 1) = .ok 127 ∧ ea (.regOff 127 3) (at_ 1 9 0 0 1) = .ok 128 ∧
    ea (.regOff (-1) 0) (at_ 1 9 0 0 1) = .ok (-1) ∧ ea (.regOff 0 0) (at_ 1 9 0 0 1) = .ok 0 ∧
    ea (.regOff 0 4) (at_ 1 9 0 0 1) = .error (.registerIndexFailure (.idx 4)) :=
  ⟨rfl, rfl, rfl, rfl, rfl, rfl, rfl⟩

theorem witness_BzBranchesOnZero : (at_ 1 0 0xFFFF 0 0).reg 0 = 0 ∧
    (at_ 1 0 0xFFFF 0 0).reg 1 ≠ 0 := by decide

theorem witness_BalLinksThenJumps :
    ea (.regOff 1 2) ((at_ 3 0 0 9 0).setReg 2 (toWord 3)) = .ok 4 ∧
    ea (.regOff 0 7) ((at_ 3 0 0 9 0).setReg 2 (toWord 3)) =
      .error (.registerIndexFailure (.idx 7)) := ⟨rfl, rfl⟩

theorem witness_BalWithLinkAsBase : (2 : Fin 4) ≠ 0 ∧ (0 : Int) ≤ (at_ 65535 0 0 9 0).pc ∧
    (at_ 65535 0 0 9 0).pc ≤ 65535 := by decide

/-- Both cases of the return: through `$2` and through `$0`. -/
theorem witness_CallAndReturn :
    (3 : Fin 4) ≠ 2 ∧ (3 : Fin 4) ≠ 0 ∧
    (∃ t, exec (.bal (.idx 2) (.known 9)) (at_ 65535 0 0 0 0) = .next t ∧ t.fault = none) ∧
    ∃ t, exec (.bal (.idx 0) (.known 9)) (at_ 0 0 0 0 0) = .next t ∧ t.fault = none :=
  ⟨by decide, by decide, ⟨_, rfl, rfl⟩, ⟨_, rfl, rfl⟩⟩

theorem witness_HltClearsRunning : Executes (words [0x7ABC]) .hlt := rfl

theorem witness_UnrecognizedOpcodeFollowsTheParameter :
    Executes (words [0xFFFF]) (.unrecognized (.number 15)) ∧
    Executes (record "SUB" ["$1"]) (.unrecognized (.name "SUB")) ∧
    (words [0xFFFF]).unknownOpcode = .nop ∧ (8 ≤ slice 0x8000 15 12) :=
  ⟨rfl, rfl, rfl, by decide⟩

/-- A word, a record, and a record with too few operands. -/
theorem witness_StepRunsTheDecodedInstruction :
    (words [0x0C40]).im[(0 : Int).toNat]? = some (.word 0x0C40) ∧ (words [0x0C40]).pc = 0 ∧
    decodeStored [] (.record { opcode := "HLT", operands := [], raw := "" }) = .instr .hlt ∧
    decodeStored [] (.record { opcode := "BZ", operands := ["$1"], raw := "" }) = .short .bz 1 := by
  decide

/-- Halted, past the end, negative, and in bounds. -/
theorem witness_HaltDetection :
    (words [0x7000]).clearRunning.running = false ∧
    ¬ ((words [0x7000]).advancePc.pcInBounds) ∧ ¬ (((words [0x7000]).setPc (-1)).pcInBounds) ∧
    (words [0x7000]).pcInBounds ∧ (words [0x7000]).fault = none := by decide

theorem witness_StepIsRefusedAfterAFault :
    ((at_ 1 0 0 0 0).latchFault (.unrecognizedOpcode (.number 8))).fault =
      some { kind := .unrecognizedOpcode (.number 8), index := 0 } := rfl

/-- A step that traces, one that faults, and one that executes nothing. -/
theorem witness_TraceRecordContents :
    (∃ t, (words [0x0C40]).nextStored = some (.word 0x0C40) ∧ step (words [0x0C40]) = .next t ∧
      t.fault = none) ∧
    (∃ t r, (words [0x14FF]).nextStored = some (.word 0x14FF) ∧ step (words [0x14FF]) = .next t ∧
      t.fault = some r) ∧
    (words []).nextStored = none ∧ Executes (words [0x7000]) .hlt :=
  ⟨⟨_, rfl, rfl, rfl⟩, ⟨_, _, rfl, rfl, rfl⟩, rfl, rfl⟩

/-- A fault, a `BZ`, the two forms of `BAL`, and any other instruction. -/
theorem witness_ProgramCounterAfterAStep :
    Executes (words [0x14FF]) (.ld (.idx 1) (.regOff (-1) 0)) ∧
    Executes (words [0x54FF]) (.bz (.idx 1) (.known (-1))) ∧
    Executes (words [0x6804]) (.bal (.idx 2) (.addr (.regOff 4 0))) ∧
    Executes { record "BAL" ["$2", "a"] with labels := [("a", 1)] } (.bal (.idx 2) (.known 1)) ∧
    ∃ t, step (words [0x6804]) = .next t ∧ t.fault = none :=
  ⟨rfl, rfl, rfl, rfl, ⟨_, rfl, rfl⟩⟩

/-- A traced `ST` to cells 0 and 127, an `LDA`, and an `HLT`. -/
theorem witness_StepChangesAtMostOneCellOrRegister :
    (∃ r t, (words [0x2000]).call = (.trace r, t) ∧
      Executes (words [0x2000]) (.st (.idx 0) (.regOff 0 0)) ∧
      ea (.regOff 0 0) (words [0x2000]).advancePc = .ok 0) ∧
    (∃ r t, (words [0x207F]).call = (.trace r, t) ∧
      Executes (words [0x207F]) (.st (.idx 0) (.regOff 127 0)) ∧
      ea (.regOff 127 0) (words [0x207F]).advancePc = .ok 127) ∧
    (∃ r t, (words [0x0C40]).call = (.trace r, t) ∧
      Executes (words [0x0C40]) (.lda (.idx 3) (.regOff 64 0))) ∧
    ∃ r t, (words [0x7000]).call = (.trace r, t) ∧ Executes (words [0x7000]) .hlt :=
  ⟨⟨_, _, rfl, rfl, rfl⟩, ⟨_, _, rfl, rfl, rfl⟩, ⟨_, _, rfl, rfl⟩, ⟨_, _, rfl, rfl⟩⟩

theorem witness_RunFlagIsClearedInTwoWays :
    (∃ t, step (words [0x7000]) = .next t ∧ t.running = false) ∧
    (∃ t, step (words []) = .next t ∧ t.running = false) ∧
    ∃ t, step (words [0x0000]) = .next t ∧ t.running = true := ⟨⟨_, rfl, rfl⟩, ⟨_, rfl, rfl⟩, ⟨_, rfl, rfl⟩⟩

/-- Register files that differ in a register the instruction does not read: `$0` as base. -/
theorem witness_RegistersReadAndWritten :
    regsRead (.lda (.idx 1) (.regOff 7 0)) = [] ∧
    (at_ 1 1 0 0 0).regs ≠ (at_ 1 2 0 0 0).regs ∧
    (∃ t, exec (.lda (.idx 1) (.regOff 7 0)) (at_ 1 1 0 0 0) = .next t ∧ t.fault = none) ∧
    (2 : Fin 4) ∉ regsWritten (.lda (.idx 1) (.regOff 7 0)) :=
  ⟨rfl, by decide, ⟨_, rfl, rfl⟩, by decide⟩

theorem witness_OnlyStWritesAndOnlyLdReadsMemory :
    (∃ t, step ((words [0x2405]).setReg 1 7) = .next t ∧
      t.mem.read 5 ≠ ((words [0x2405]).setReg 1 7).mem.read 5) ∧
    ∃ t, exec (.add (.idx 1) (.idx 2) (.idx 3)) (at_ 1 0 0 0 0) = .next t :=
  ⟨⟨_, rfl, by decide⟩, ⟨_, rfl⟩⟩

/-- `ST $1,10($0)` at index 0, a step of `LDA $3,1($0)` at index 1 that stores nothing, and then
`LD $2,10($0)`. -/
theorem witness_LoadSeesTheLastStore :
    ∃ t u, exec (.st (.idx 1) (.regOff 10 0)) ((words [0x240A, 0x0C01, 0x180A]).setPc 1) = .next t ∧
      QuietSteps 10 t u ∧ u ≠ t ∧ regIdx (.idx 2) = .ok 2 ∧
      ea (.regOff 10 0) u.advancePc = .ok 10 :=
  ⟨_, _, rfl, .step .refl (by
    intro i hi
    cases Option.some.inj hi
    rintro ⟨r, a, j, h, -⟩
    cases h) rfl, by decide, rfl, rfl⟩

theorem witness_ProgramIsNeverWritten : ∃ t, Reaches (words [0x0C40]) t ∧ t ≠ words [0x0C40] :=
  ⟨_, .step .refl rfl, by decide⟩

/-- A taken `BZ` to -1, a `BAL` to a known label and through `$0`, and the state each leaves. -/
theorem witness_OutOfBoundsTargetEndsTheRun :
    Executes (words [0x54FF]) (.bz (.idx (1 : Fin 4).val) (.known (-1))) ∧
    (words [0x54FF]).reg 1 = 0 ∧
    Executes { record "BAL" ["$2", "a"] with labels := [("a", 1)] }
      (.bal (.idx (2 : Fin 4).val) (.known 1)) ∧
    Executes (words [0x6804]) (.bal (.idx (2 : Fin 4).val) (.addr (.regOff 4 (0 : Fin 4).val))) ∧
    ∃ t, step (words [0x54FF]) = .next t ∧ t.fault = none ∧ ¬ t.pcInBounds :=
  ⟨rfl, rfl, rfl, rfl, ⟨_, rfl, rfl, by decide⟩⟩

/-- An `LD` that faults and a `BAL` whose base faults. -/
theorem witness_StateAfterAFault :
    (∃ t r, step (words [0x14FF]) = .next t ∧ t.fault = some r ∧ (words [0x14FF]).fault = none) ∧
    ∃ t r, step (record "BAL" ["$1", "0($7)"]) = .next t ∧ t.fault = some r :=
  ⟨⟨_, _, rfl, rfl, rfl⟩, ⟨_, _, rfl, rfl⟩⟩

theorem words_binary (ws : List Word) : BinaryStore (words ws) := by
  intro si h
  obtain ⟨w, -, rfl⟩ := List.mem_map.mp h
  exact ⟨w, rfl⟩

theorem witness_FaultsOfTheBinaryForm :
    BinaryStore (words [0x14FF]) ∧ (words [0x14FF]).fault = none ∧
    ∃ t r, step (words [0x14FF]) = .next t ∧ t.fault = some r :=
  ⟨words_binary _, rfl, ⟨_, _, rfl, rfl⟩⟩

theorem witness_EndedMachineIsInert :
    (at_ 0 0 0 0 0).clearRunning.running = false ∧
    ((at_ 0 0 0 0 0).latchFault (.operandArityFailure .bz)).fault ≠ none ∧
    Reaches (at_ 0 0 0 0 0).clearRunning (at_ 0 0 0 0 0).clearRunning.clearRunning :=
  ⟨rfl, by decide, .step .refl rfl⟩

theorem witness_ProgramWithoutMemoryAccessNeverFaults :
    BinaryStore (words [0x0C40, 0x8000]) ∧ (words [0x0C40, 0x8000]).unknownOpcode = .nop ∧
    (words [0x0C40, 0x8000]).fault = none ∧
    ∀ w, StoredInstr.word w ∈ (words [0x0C40, 0x8000]).im →
      slice w 15 12 ≠ 1 ∧ slice w 15 12 ≠ 2 := by
  refine ⟨words_binary _, rfl, rfl, fun w h => ?_⟩
  rcases List.mem_cons.mp h with h | h
  · cases h; decide
  · rcases List.mem_cons.mp h with h | h
    · cases h; decide
    · cases h

/-- A machine that stores in its next step, and one that faults in it. -/
theorem witness_EveryStepKeepsTheInvariant :
    Inv ((words [0x2405]).setReg 1 7) ∧ Inv (words [0x14FF]) ∧
    (∃ t, step ((words [0x2405]).setReg 1 7) = .next t ∧ t.mem = [(5, 7)]) ∧
    ∃ t, step (words [0x14FF]) = .next t ∧ t.fault ≠ none :=
  ⟨⟨by decide, fun _ h => by cases h⟩, ⟨by decide, fun _ h => by cases h⟩, ⟨_, rfl, by decide⟩,
    ⟨_, rfl, by decide⟩⟩

/-- Loops that stop early: after `HLT`, and at a fault. -/
theorem witness_DrivingLoopStopsOnlyAtTheEnd :
    (drive 2 (words [0x7000])).1.length < 2 ∧ (drive 2 (words [0x14FF])).1.length < 2 := by decide

theorem witness_PlacedWordIsRunByTheNextStep : 65535 < 65536 ∧ (0 : Int) ≤ State.reset.pc := by
  decide

end Sys2Proof.Tests
end

section
/-! The scope family: the readings of a word (R7 to R10), that a step answers unless a fault is latched
(R12, R108), and the invariant every step keeps (R29, R188). -/

namespace Sys2Proof

theorem unsigned_toWord_range (v : Int) :
    0 ≤ unsigned (toWord v) ∧ unsigned (toWord v) ≤ 65535 :=
  ⟨unsigned_nonneg _, Int.le_of_lt_add_one (unsigned_lt _)⟩

/-- R9: the top bit of the masked value is bit 15 of the word. -/
theorem isNegative_eq_getLsbD (v : Int) : isNegative v = (toWord v).getLsbD 15 := by
  have hmsb : (toWord v).msb = (toWord v).getLsbD 15 := BitVec.msb_eq_getLsbD_last _
  rw [← hmsb, BitVec.msb_eq_decide, isNegative, unsigned, decide_eq_decide]
  omega

/-- R9: the top bit is set exactly when the signed reading is negative. -/
theorem isNegative_eq_toSigned_neg (v : Int) : isNegative v = decide (toSigned v < 0) := by
  have hlt := unsigned_lt (toWord v)
  have hnn := unsigned_nonneg (toWord v)
  rw [isNegative, toSigned, decide_eq_decide]
  split <;> omega

/-- R10: the signed reading and the value it reads have the same word. -/
theorem toWord_toSigned (v : Int) : toWord (toSigned v) = toWord v := by
  rw [toWord_eq_toWord, toSigned_eq]
  split <;> omega

/-- Settles O1, by reducing the unsigned reading of `toWord` to the integer remainder. -/
theorem toWordIsNonNegativeRemainder : Obligations.ToWordIsNonNegativeRemainder :=
  ⟨fun v => ⟨unsigned_toWord v, unsigned_toWord_range v⟩, by decide⟩

/-- Settles O2: the bounds, bit 15 and the sign are one lemma each. -/
theorem signedReadingAndTopBit : Obligations.SignedReadingAndTopBit :=
  ⟨fun v => ⟨rfl, (toSigned_bounds v).1, (toSigned_bounds v).2, rfl, isNegative_eq_getLsbD v,
    isNegative_eq_toSigned_neg v⟩, by decide⟩

/-- Settles O3: each law is an equality of remainders modulo 65536. -/
theorem wordReadingsRoundTrip : Obligations.WordReadingsRoundTrip := by
  intro v
  refine ⟨?_, toWord_unsigned _, toWord_toSigned v⟩
  rw [unsigned_toWord, toSigned_emod]

namespace Machine

section
variable {s t : State} {i : Instr}

/-! ### Every instruction answers a next state -/

theorem useReg_answers {r : RegSel} {k : Fin 4 → Outcome} (h : ∀ j, ∃ t, k j = .next t) :
    ∃ t, useReg r s k = .next t :=
  useValue_answers fun j _ => h j

theorem useEa_answers {a : AddrOp} {k : Int → Outcome} (h : ∀ v, ∃ t, k v = .next t) :
    ∃ t, useEa a s k = .next t :=
  useValue_answers fun v _ => h v

theorem branchTo_answers (g : BzTgt) (s : State) : ∃ t, branchTo g s = .next t := by
  cases g with
  | known k => exact ⟨_, rfl⟩
  | undefined name => exact ⟨_, rfl⟩

theorem jumpTo_answers (g : BalTgt) (s : State) : ∃ t, jumpTo g s = .next t := by
  cases g with
  | known k => exact ⟨_, rfl⟩
  | addr a => exact useEa_answers fun v => ⟨_, rfl⟩

theorem execUnrecognized_answers (tag : OpTag) (s : State) :
    ∃ t, execUnrecognized tag s = .next t := by
  unfold execUnrecognized
  cases s.unknownOpcode with
  | nop => exact ⟨_, rfl⟩
  | fault => exact ⟨_, rfl⟩

/-- R12: an instruction that faults answers a next state too, the one with the fault latched. -/
theorem exec_answers (i : Instr) (s : State) : ∃ t, exec i s = .next t := by
  cases i with
  | lda d a => exact useReg_answers fun j => useEa_answers fun v => ⟨_, rfl⟩
  | ld d a =>
    exact useReg_answers fun j => useEa_answers fun v => useValue_answers fun w _ => ⟨_, rfl⟩
  | st r a =>
    exact useReg_answers fun j => useEa_answers fun v => useValue_answers fun t _ => ⟨t, rfl⟩
  | add d a b =>
    exact useReg_answers fun i => useReg_answers fun j => useReg_answers fun k => ⟨_, rfl⟩
  | slt d a b =>
    exact useReg_answers fun i => useReg_answers fun j => useReg_answers fun k => ⟨_, rfl⟩
  | bz c g =>
    refine useReg_answers fun j => ?_
    split
    · exact branchTo_answers g s
    · exact ⟨s, rfl⟩
  | bal l g => exact useReg_answers fun j => jumpTo_answers g _
  | hlt => exact ⟨_, rfl⟩
  | unrecognized tag => exact execUnrecognized_answers tag s

theorem execStored_answers (si : StoredInstr) (s : State) : ∃ t, execStored si s = .next t := by
  unfold execStored
  cases decodeStored s.labels si with
  | instr i => exact exec_answers i _
  | short op n => exact ⟨_, rfl⟩

/-- Settles O40: of the three things a step can do, only the refusal has no next state. -/
theorem stepAnswersUnlessAFaultIsLatched : Obligations.StepAnswersUnlessAFaultIsLatched := by
  intro s
  refine ⟨fun ⟨t, h⟩ => (step_next_cases h).1, fun hf => ?_⟩
  rcases step_cases s with ⟨r, hr, -, -⟩ | ⟨-, -, -, hs⟩ | ⟨si, -, -, -, -, -, hs⟩
  · rw [hf] at hr
    cases hr
  · exact ⟨_, hs⟩
  · rw [hs]
    exact execStored_answers si s

/-! ### The invariant -/

/-- An instruction leaves memory or writes one cell of it, in range. -/
theorem Effect.mem_cases (h : Effect s i t) :
    t.mem = s.mem ∨ ∃ v w, inDataRange v ∧ t.mem = s.mem.write v.toNat w := by
  cases h with
  | store r a j v hr ha hv => exact .inr ⟨v, _, hv, rfl⟩
  | fault | register | branch | notTaken | link | linkFault | halt | nop => exact .inl rfl

theorem Effect.keeps_mem_wf (h : Effect s i t) (hm : s.mem.wf) : t.mem.wf := by
  rcases h.mem_cases with ht | ⟨v, w, hv, ht⟩
  · rw [ht]
    exact hm
  · rw [ht]
    exact Memory.write_wf hm (toNat_lt_memWords hv) w

/-- R188: an instruction that latches a fault reports the index before `pc` and leaves `pc`, `running`
and the instruction store. -/
theorem Effect.of_latches {r : FaultRecord} (h : Effect s i t) (hs : s.fault = none)
    (ht : t.fault = some r) :
    r.index = s.pc - 1 ∧ t.pc = s.pc ∧ t.running = s.running ∧ t.im = s.im := by
  cases h with
  | fault | linkFault =>
    cases ht
    exact ⟨rfl, rfl, rfl, rfl⟩
  | register | store | branch | notTaken | link | halt | nop =>
    exact absurd (hs.symm.trans ht) (by simp)

/-- Every step keeps the canonical form of data memory. -/
theorem step_keeps_mem_wf (h : step s = .next t) (hm : s.mem.wf) : t.mem.wf := by
  obtain ⟨-, ⟨-, -, rfl⟩ | ⟨si, -, -, -, -, ⟨op, n, -, rfl⟩ | ⟨i, -, he⟩⟩⟩ := step_next_cases h
  · exact hm
  · exact hm
  · exact (exec_effect he).keeps_mem_wf hm

/-- R29, R188: a step that latches a fault reports the index it fetched from, which is in bounds, and
leaves `running` true, `pc` one past that index, and the instruction store. -/
theorem step_latches {r : FaultRecord} (h : step s = .next t) (ht : t.fault = some r) :
    r.index = s.pc ∧ s.pcInBounds ∧ t.pc = s.pc + 1 ∧ t.running = true ∧ t.im = s.im := by
  obtain ⟨hf, ⟨-, -, rfl⟩ | ⟨si, -, hr, hb, -, ⟨op, n, -, rfl⟩ | ⟨i, -, he⟩⟩⟩ := step_next_cases h
  · exact absurd (hf.symm.trans ht) (by simp)
  · cases ht
    exact ⟨Int.add_sub_cancel _ _, hb, rfl, hr, rfl⟩
  · obtain ⟨hidx, hpc, hrun, him⟩ := (exec_effect he).of_latches hf ht
    exact ⟨hidx.trans (Int.add_sub_cancel _ _), hb, hpc, hrun.trans hr, him⟩

end

/-- Settles O55: a step keeps the form of memory, and a fault it latches stands as R188 says. -/
theorem everyStepKeepsTheInvariant : Obligations.EveryStepKeepsTheInvariant := by
  intro s t ⟨hm, _⟩ h
  refine ⟨step_keeps_mem_wf h hm, fun r hr => ?_⟩
  obtain ⟨hidx, ⟨hlo, hhi⟩, hpc, hrun, him⟩ := step_latches h hr
  rw [hidx, him]
  exact ⟨hrun, hpc, hlo, hhi⟩

end Machine

end Sys2Proof
end

section
/-! The state family, first part: the canonical form of data memory (R32, R40), reset (R34), and the word
placed for the next step (R33, R101). -/

namespace Sys2Proof.Machine

/-! ### Canonical memories -/

namespace Memory

section
variable {c d : Nat × Word} {m n : Memory}

theorem wf_tail (h : Memory.wf (c :: m)) : Memory.wf m :=
  ⟨h.1.of_cons, fun e he => h.2 e (List.mem_cons_of_mem c he)⟩

@[simp] theorem read_cons_head : Memory.read (c :: m) c.1 = c.2 := if_pos rfl

theorem read_cons_other {a : Nat} (h : a ≠ c.1) : Memory.read (c :: m) a = m.read a :=
  if_neg h.symm

/-- A canonical memory reads what is not the unwritten value at its first entry. -/
theorem read_head_ne (h : Memory.wf (c :: m)) :
    Memory.read (c :: m) c.1 ≠ Config.unwrittenCell := by
  rw [read_cons_head]
  exact (h.2 c List.mem_cons_self).2

theorem read_below_head (h : Memory.wf (c :: m)) {a : Nat} (ha : a < c.1) :
    Memory.read (c :: m) a = Config.unwrittenCell := by
  refine read_of_lt fun e he => ?_
  rcases List.mem_cons.mp he with rfl | he
  · exact ha
  · exact ha.trans (List.rel_of_pairwise_cons h.1 he)

theorem read_tail_at_head (h : Memory.wf (c :: m)) : m.read c.1 = Config.unwrittenCell :=
  read_of_lt fun _ he => List.rel_of_pairwise_cons h.1 he

/-- Of canonical memories that read alike, neither begins below the other. -/
theorem head_le_head (hm : Memory.wf (c :: m)) (hn : Memory.wf (d :: n))
    (h : ∀ a, Memory.read (c :: m) a = Memory.read (d :: n) a) : d.1 ≤ c.1 := by
  by_contra hlt
  exact read_head_ne hm ((h c.1).trans (read_below_head hn (Nat.lt_of_not_le hlt)))

end

/-- Canonical memories that read alike are the same list. -/
theorem eq_of_read_eq {m n : Memory} (hm : m.wf) (hn : n.wf) (h : ∀ a, m.read a = n.read a) :
    m = n := by
  induction m generalizing n with
  | nil =>
    cases n with
    | nil => rfl
    | cons d n => exact absurd (h d.1).symm (read_head_ne hn)
  | cons c m ih =>
    cases n with
    | nil => exact absurd (h c.1) (read_head_ne hm)
    | cons d n =>
      have haddr : c.1 = d.1 :=
        Nat.le_antisymm (head_le_head hn hm fun a => (h a).symm) (head_le_head hm hn h)
      have hword : c.2 = d.2 := by
        have hc := h c.1
        rwa [read_cons_head, haddr, read_cons_head] at hc
      have htail : m = n := ih (wf_tail hm) (wf_tail hn) fun a => by
        by_cases ha : a = c.1
        · rw [ha, read_tail_at_head hm, haddr, read_tail_at_head hn]
        · rw [← read_cons_other ha, h a, read_cons_other (haddr ▸ ha)]
      rw [Prod.ext haddr hword, htail]

end Memory

/-- Settles O23, by induction on the entries: the first addresses of the two lists must agree. -/
theorem canonicalMemoriesThatReadAlikeAreEqual :
    Obligations.CanonicalMemoriesThatReadAlikeAreEqual :=
  fun _ _ hm hn h => Memory.eq_of_read_eq hm hn h

/-! ### Reset -/

theorem reset_reg (i : Fin 4) : State.reset.reg i = 0 := by
  fin_cases i <;> rfl

theorem resetEvent_sameProgram (s : State) : SameProgram s s.resetEvent := ⟨rfl, rfl, rfl⟩

/-- Settles O53: a reset event gives every field but the program its value at `State.reset`. -/
theorem resetValues : Obligations.ResetValues := by
  rintro s t (rfl | rfl)
  · exact ⟨reset_reg, fun _ => rfl, rfl, rfl, rfl, fun h => h ▸ resetEvent_sameProgram s⟩
  · exact ⟨reset_reg, fun _ => rfl, rfl, rfl, rfl, fun _ => resetEvent_sameProgram s⟩

/-- Settles O54: memory has no entry and no fault is latched. -/
theorem resetMeetsTheInvariant : Obligations.ResetMeetsTheInvariant :=
  ⟨⟨.nil, nofun⟩, nofun⟩

/-! ### The word placed for the next step -/

theorem step_of_nextStored {s : State} {si : StoredInstr} (h : s.nextStored = some si) :
    step s = execStored si s := by
  obtain ⟨hf, hr, hi⟩ := nextStored_some.mp h
  simp [step, hf, hr, hi]

theorem placeAt_getElem? (im : List StoredInstr) (k : Nat) (x : StoredInstr) :
    (placeAt im k x)[k]? = some x := by
  unfold placeAt
  split
  · next h => exact List.getElem?_set_self h
  · next h =>
    have hlen : (im ++ List.replicate (k - im.length) (StoredInstr.word 0)).length = k := by
      simp only [List.length_append, List.length_replicate]
      omega
    rw [List.getElem?_append_right hlen.le, hlen, Nat.sub_self]
    rfl

theorem placeFetchWord_fetch (s : State) (w : Word) :
    (placeFetchWord s w).fetch = some (.word w) :=
  (if_pos (Int.natCast_nonneg _)).trans (placeAt_getElem? s.im s.pc.toNat (.word w))

theorem step_placeFetchWord (s : State) (w : Word) :
    step (placeFetchWord s w) = exec (decodeWord w) (placeFetchWord s w).advancePc := by
  have hnext : (placeFetchWord s w).nextStored = some (.word w) :=
    nextStored_some.mpr ⟨rfl, rfl, placeFetchWord_fetch s w⟩
  exact step_of_nextStored hnext

/-- A word of 16 bits is the whole of its 16-bit table word. -/
theorem ofNat_mod_word {w : Nat} (h : w < 65536) :
    BitVec.ofNat 16 (w % 2 ^ 16) = BitVec.ofNat 16 w := by
  rw [Nat.mod_eq_of_lt (show w < 2 ^ 16 from h)]

/-- Settles O57: the placed word is what the next step fetches. -/
theorem placedWordIsRunByTheNextStep : Obligations.PlacedWordIsRunByTheNextStep := by
  intro s w hw
  rw [State.withFetchWord, decodeTableWord, if_pos le_rfl, ofNat_mod_word hw]
  exact ⟨step_placeFetchWord s _, rfl, rfl, Int.toNat_of_nonneg, rfl⟩

end Sys2Proof.Machine
end

section
/-! The state family, second part: what one step and a run leave of the registers, memory, `pc`, `running`
and the program (R23, R26 to R29, R32, R33, R107). -/

namespace Sys2Proof.Machine

section
variable {s t u : State} {i : Instr}

/-! ### The program is never written -/

theorem SameProgram.refl (s : State) : SameProgram s s := ⟨rfl, rfl, rfl⟩

theorem SameProgram.symm : SameProgram s t → SameProgram t s
  | ⟨him, hlabels, hunknown⟩ => ⟨him.symm, hlabels.symm, hunknown.symm⟩

theorem SameProgram.trans : SameProgram s t → SameProgram t u → SameProgram s u
  | ⟨him, hlabels, hunknown⟩, ⟨him', hlabels', hunknown'⟩ =>
    ⟨him'.trans him, hlabels'.trans hlabels, hunknown'.trans hunknown⟩

theorem Effect.sameProgram (h : Effect s i t) : SameProgram s t := by
  cases h <;> exact ⟨rfl, rfl, rfl⟩

theorem step_sameProgram (h : step s = .next t) : SameProgram s t := by
  obtain ⟨-, ⟨-, -, rfl⟩ | ⟨si, -, -, -, -, ⟨op, n, -, rfl⟩ | ⟨i, -, he⟩⟩⟩ := step_next_cases h
  · exact ⟨rfl, rfl, rfl⟩
  · exact ⟨rfl, rfl, rfl⟩
  · exact (exec_effect he).sameProgram

/-! ### A machine that has ended -/

theorem clearRunning_of_not_running (h : s.running = false) : s.clearRunning = s := by
  rw [State.clearRunning, ← h]

/-- R29, R108, R166: a machine that has ended answers no other state. -/
theorem step_of_ended (hs : s.fault ≠ none ∨ s.running = false) (h : step s = .next t) : t = s := by
  obtain ⟨hf, ⟨-, -, rfl⟩ | ⟨si, -, hr, -⟩⟩ := step_next_cases h
  · exact clearRunning_of_not_running (hs.resolve_left (not_not_intro hf))
  · rw [hr] at hs
    exact absurd hs (by simp [hf])

/-! ### A step by what it executes -/

theorem Executes.unique {i j : Instr} (hi : Executes s i) (hj : Executes s j) : i = j := by
  cases hi.symm.trans hj
  rfl

/-- A step that answers a next state halts, raises `OperandArityFailure`, or executes an instruction in
the state with `pc` advanced. -/
theorem step_next_executes (h : step s = .next t) :
    s.fault = none ∧
    ((s.nextDecoded = none ∧ (s.running = false ∨ ¬ s.pcInBounds) ∧ t = s.clearRunning) ∨
     s.running = true ∧ s.pcInBounds ∧
      ((∃ op n, s.nextDecoded = some (.short op n) ∧
          t = s.advancePc.latchFault (.operandArityFailure op)) ∨
       ∃ i, Executes s i ∧ exec i s.advancePc = .next t)) := by
  obtain ⟨hf, ⟨hn, hb, ht⟩ | ⟨si, hn, hr, hb, -, hd⟩⟩ := step_next_cases h
  · exact ⟨hf, .inl ⟨by rw [State.nextDecoded, hn]; rfl, hb, ht⟩⟩
  · have hnext : s.nextDecoded = some (decodeStored s.labels si) := by rw [State.nextDecoded, hn]; rfl
    rcases hd with ⟨op, n, hd, ht⟩ | ⟨i, hd, he⟩
    · exact ⟨hf, .inr ⟨hr, hb, .inl ⟨op, n, hnext.trans (congrArg some hd), ht⟩⟩⟩
    · exact ⟨hf, .inr ⟨hr, hb, .inr ⟨i, hnext.trans (congrArg some hd), he⟩⟩⟩

/-- R102, R103: a step that executes `i` applies the meaning of `i` to the state with `pc` advanced. -/
theorem Executes.step_eq (hi : Executes s i) : step s = exec i s.advancePc := by
  obtain ⟨si, hn, hd⟩ := Option.map_eq_some_iff.mp hi
  rw [step_of_nextStored hn, execStored, hd]
  rfl

/-! ### Where a step leaves `pc` -/

theorem Effect.pc_of_not_branch (h : Effect s i t) (hbz : ∀ c g, i ≠ .bz c g)
    (hbal : ∀ l g, i ≠ .bal l g) : t.pc = s.pc := by
  cases h with
  | fault | register | store | halt | nop => rfl
  | branch c k => exact absurd rfl (hbz _ _)
  | notTaken c g => exact absurd rfl (hbz _ _)
  | link l g => exact absurd rfl (hbal _ _)
  | linkFault l => exact absurd rfl (hbal _ _)

theorem exec_bz_known_pc {c : Fin 4} {k : Int} (h : exec (.bz (.idx c.val) (.known k)) s = .next t) :
    t.pc = if s.reg c = 0 then k else s.pc := by
  rcases execBz_cases h with ⟨f, -, hf | ⟨_, _, -, -, hg, -⟩⟩ | ⟨j, k', hj, hz, hg, rfl⟩ | ⟨j, hj, hz, rfl⟩
  · simp at hf
  · cases hg
  · cases hg
    cases (regIdx_fin c).symm.trans hj
    rw [if_pos hz]
    rfl
  · cases (regIdx_fin c).symm.trans hj
    rw [if_neg hz]

theorem exec_bal_known_pc {l : RegSel} {k : Int} (h : exec (.bal l (.known k)) s = .next t)
    (ht : t.fault = none) : t.pc = k := by
  rcases execBal_cases h with ⟨f, -, rfl⟩ | ⟨j, -, ⟨k', hg, rfl⟩ | ⟨a, hg, -⟩⟩
  · cases ht
  · cases hg
    rfl
  · cases hg

/-- The link is written before the target is resolved, and the jump leaves the registers. -/
theorem exec_bal_addr_pc {l : RegSel} {a : AddrOp} (h : exec (.bal l (.addr a)) s = .next t)
    (ht : t.fault = none) : ea a t = .ok t.pc := by
  rcases execBal_cases h with
    ⟨f, -, rfl⟩ | ⟨j, -, ⟨k, hg, -⟩ | ⟨a', hg, ⟨v, hv, rfl⟩ | ⟨f, -, rfl⟩⟩⟩
  · cases ht
  · cases hg
  · cases hg
    exact (ea_congr a rfl).trans hv
  · cases ht

/-! ### What one instruction writes -/

theorem selected_of_ok {r : RegSel} {j : Fin 4} (h : regIdx r = .ok j) : selected r = [j] := by
  rw [selected, h]

theorem selected_length_le_one (r : RegSel) : (selected r).length ≤ 1 := by
  unfold selected
  split <;> simp

/-- R23: an instruction writes at most one register. -/
theorem regsWritten_length_le_one (i : Instr) : (regsWritten i).length ≤ 1 := by
  cases i with
  | lda d | ld d | add d | slt d | bal d => exact selected_length_le_one d
  | st | bz | hlt | unrecognized => exact Nat.zero_le 1

theorem setReg_reg_of_not_selected {d : RegSel} {j k : Fin 4} (hd : regIdx d = .ok j) (w : Word)
    (hk : k ∉ selected d) : (s.setReg j w).reg k = s.reg k := by
  rw [selected_of_ok hd, List.mem_singleton] at hk
  exact State.setReg_reg_other s j k w hk

/-- R23: a register an instruction does not write reads as before, faults included. -/
theorem Effect.reg_of_not_written (h : Effect s i t) {j : Fin 4} (hj : j ∉ regsWritten i) :
    t.reg j = s.reg j := by
  cases h with
  | fault | store | branch | notTaken | halt | nop => rfl
  | register d k w hd hi =>
    obtain ⟨a, rfl⟩ | ⟨a, rfl⟩ | ⟨a, b, rfl⟩ | ⟨a, b, rfl⟩ := hi <;>
      exact setReg_reg_of_not_selected hd w hj
  | link l g k _ hl => exact setReg_reg_of_not_selected hl _ hj
  | linkFault l off b k hl => exact setReg_reg_of_not_selected hl _ hj

/-- R32: a cell that an instruction changes is the one it stores to. -/
theorem Effect.storesTo_of_read_ne (h : Effect s i t) {a : Nat} (ha : t.mem.read a ≠ s.mem.read a) :
    StoresTo i s (a : Int) := by
  cases h with
  | fault | register | branch | notTaken | link | linkFault | halt | nop => exact absurd rfl ha
  | store r b j v hr hb hv =>
    have hav : a = v.toNat := by
      by_contra hne
      exact ha (Memory.read_write_other s.mem hne _)
    have hcast : (a : Int) = v := hav ▸ Int.toNat_of_nonneg hv.1
    exact ⟨r, b, j, rfl, hr, hcast ▸ hb, hcast ▸ hv⟩

theorem Effect.storesTo_of_st {r : RegSel} {a : AddrOp} (h : Effect s (.st r a) t)
    (ht : t.fault = none) : ∃ v, StoresTo (.st r a) s v := by
  cases h with
  | fault => cases ht
  | register d k w hd hi => simp at hi
  | store _ _ j v hr ha hv => exact ⟨v, r, a, j, rfl, hr, ha, hv⟩

theorem StoresTo.address {r : RegSel} {a : AddrOp} {v : Int} (h : StoresTo (.st r a) s v) :
    ea a s = .ok v ∧ inDataRange v := by
  obtain ⟨_, _, _, hi, -, ha, hv⟩ := h
  cases hi
  exact ⟨ha, hv⟩

/-- R125: a store leaves every cell but the one at its effective address. -/
theorem Effect.sameMemoryExcept_of_st {r : RegSel} {a : AddrOp} {v : Int}
    (h : Effect s (.st r a) t) (ha : ea a s = .ok v) : SameMemoryExcept v.toNat s t := by
  intro b hb
  by_contra hne
  obtain ⟨hea, -⟩ := (h.storesTo_of_read_ne hne).address
  cases ha.symm.trans hea
  exact hb rfl

theorem Effect.sameMemory_of_not_st (h : Effect s i t) (hi : ∀ r a, i ≠ .st r a) :
    SameMemory s t := by
  intro a
  by_contra hne
  obtain ⟨r, b, j, hst, -⟩ := h.storesTo_of_read_ne hne
  exact hi r b hst

/-- R28: `HLT` clears `running`, and every other instruction leaves it. -/
theorem Effect.running_eq (h : Effect s i t) :
    (i = .hlt → t.running = false) ∧ (i ≠ .hlt → t.running = s.running) := by
  cases h with
  | fault f hi => exact ⟨fun h => absurd h hi, fun _ => rfl⟩
  | register d k w hd hi => exact ⟨by rintro rfl; simp at hi, fun _ => rfl⟩
  | halt => exact ⟨fun _ => rfl, fun h => absurd rfl h⟩
  | store | branch | notTaken | link | linkFault | nop => exact ⟨nofun, fun _ => rfl⟩

/-! ### What a traced step changes -/

theorem idleResult_ne_trace (s : State) (r : TraceRecord) : idleResult s ≠ .trace r := by
  unfold idleResult
  cases s.fault with
  | none => exact nofun
  | some f => exact nofun

theorem executedResult_trace {p : Int} {si : StoredInstr} {r : TraceRecord}
    (h : executedResult p si t = .trace r) : t.fault = none := by
  unfold executedResult at h
  cases hf : t.fault with
  | none => rfl
  | some f =>
    rw [hf] at h
    cases h

/-- R213: a call that gives a trace record is a step that fetched an instruction and latched nothing. -/
theorem call_trace {r : TraceRecord} (h : s.call = (.trace r, t)) :
    (∃ si, s.nextStored = some si) ∧ step s = .next t ∧ t.fault = none := by
  unfold State.call at h
  cases hn : s.nextStored with
  | none =>
    rw [hn] at h
    exact absurd (congrArg Prod.fst h) (idleResult_ne_trace s r)
  | some si =>
    obtain ⟨v, hv⟩ := execStored_answers si s
    rw [← step_of_nextStored hn] at hv
    rw [hn, hv] at h
    obtain ⟨hr, rfl⟩ := Prod.mk.inj h
    exact ⟨⟨si, rfl⟩, hv, executedResult_trace hr⟩

/-- R104: a step that traces executed an instruction, since `SHORT` faults. -/
theorem executes_of_call_trace {r : TraceRecord} (h : s.call = (.trace r, t)) :
    ∃ i, Executes s i := by
  obtain ⟨⟨si, hn⟩, hstep, hf⟩ := call_trace h
  obtain ⟨-, ⟨hd, -⟩ | ⟨-, -, ⟨op, n, -, rfl⟩ | ⟨i, hi, -⟩⟩⟩ := step_next_executes hstep
  · simp [State.nextDecoded, hn] at hd
  · cases hf
  · exact ⟨i, hi⟩

end

/-- Settles O41: each clause is a fact about the executed instruction in the state with `pc` advanced. -/
theorem programCounterAfterAStep : Obligations.ProgramCounterAfterAStep := by
  intro s t i hi h
  have he : exec i s.advancePc = .next t := hi.step_eq.symm.trans h
  refine ⟨fun ht => ?_, (exec_effect he).pc_of_not_branch, ?_, ?_, ?_⟩
  · obtain ⟨r, hr⟩ := Option.ne_none_iff_exists'.mp ht
    obtain ⟨-, -, hpc, -⟩ := step_latches h hr
    exact hpc
  · rintro c k rfl
    exact exec_bz_known_pc he
  · rintro l k rfl ht
    exact exec_bal_known_pc he ht
  · rintro l a rfl ht
    exact exec_bal_addr_pc he ht

/-- Settles O42: the clauses are the frame facts of the one instruction the step executed. -/
theorem stepChangesAtMostOneCellOrRegister : Obligations.StepChangesAtMostOneCellOrRegister := by
  intro s t r h
  obtain ⟨-, hstep, ht⟩ := call_trace h
  refine ⟨executes_of_call_trace h, ht, step_sameProgram hstep, fun i hi => ?_⟩
  have eff : Effect s.advancePc i t := exec_effect (hi.step_eq.symm.trans hstep)
  refine ⟨regsWritten_length_le_one i, fun j hj => eff.reg_of_not_written hj, ?_,
    eff.sameMemory_of_not_st, eff.running_eq⟩
  rintro src a rfl
  obtain ⟨v, hv⟩ := eff.storesTo_of_st ht
  refine ⟨fun j => eff.reg_of_not_written List.not_mem_nil, ⟨v, hv⟩, fun v' hv' => ?_⟩
  obtain ⟨hea, hlo, hhi⟩ := hv.address
  cases hv'.symm.trans hea
  exact ⟨hlo, hhi, eff.sameMemoryExcept_of_st hv'⟩

/-- Settles O43: a step halts, raises a fault that leaves the flag, or executes one instruction. -/
theorem runFlagIsClearedInTwoWays : Obligations.RunFlagIsClearedInTwoWays := by
  refine ⟨rfl, fun s t h => ?_⟩
  obtain ⟨-, ⟨-, hb, rfl⟩ | ⟨hr, hb, hcase⟩⟩ := step_next_executes h
  · exact ⟨fun hr => ⟨fun _ => .inr (hb.resolve_left (by simp [hr])), fun _ => rfl⟩, fun _ => rfl⟩
  refine ⟨fun _ => ?_, fun hr' => absurd (hr.symm.trans hr') (by simp)⟩
  rw [or_iff_left (not_not_intro hb)]
  rcases hcase with ⟨op, n, hn, rfl⟩ | ⟨i, hi, he⟩
  · exact ⟨fun ht => absurd (hr.symm.trans ht) (by simp), fun hh => by cases hn.symm.trans hh⟩
  · obtain ⟨hhalt, hother⟩ := (exec_effect he).running_eq
    refine ⟨fun ht => ?_, fun hh => hhalt (hi.unique hh)⟩
    by_cases hh : i = .hlt
    · exact hh ▸ hi
    · exact absurd ((hr.symm.trans (hother hh).symm).trans ht) (by simp)

/-- Settles O47, by induction on the run: every step keeps the program. -/
theorem programIsNeverWritten : Obligations.ProgramIsNeverWritten := by
  intro s t h
  induction h with
  | refl => exact SameProgram.refl s
  | step _ hstep ih => exact ih.trans (step_sameProgram hstep)

/-- Settles O51, by induction on the run: each of its steps begins in the first state. -/
theorem endedMachineIsInert : Obligations.EndedMachineIsInert := by
  intro s t hs h
  induction h with
  | refl => rfl
  | step _ hstep ih =>
    subst ih
    exact step_of_ended hs hstep

end Sys2Proof.Machine
end

section
/-! The state family, third part: which registers an instruction reads, and that only `LD` reads data
memory (R23, R32). Both are one fact: in two states that agree on what an instruction reads it has the
same effect. It is proved line by line of the pseudocode, as `BothAnswer` of the relation `SameEffect`. -/

namespace Sys2Proof.Machine

/-- Both outcomes are next states, and `R` relates them. -/
def BothAnswer (R : State → State → Prop) (o o' : Outcome) : Prop :=
  ∃ t t', o = .next t ∧ o' = .next t' ∧ R t t'

/-- What `s` became in `t` and what `s'` became in `t'` is the same effect, of an instruction that writes
the registers `ws`: every register reads alike or is untouched in both, and, no fault latched, those of
`ws` read alike. -/
structure SameEffect (ws : List (Fin 4)) (s s' t t' : State) : Prop where
  pc : t'.pc = t.pc
  running : t'.running = t.running
  fault : t'.fault = t.fault
  mem : s'.mem = s.mem → t'.mem = t.mem
  reg : ∀ j, t'.reg j = t.reg j ∨ (t.reg j = s.reg j ∧ t'.reg j = s'.reg j)
  written : t.fault = none → ∀ j ∈ ws, t'.reg j = t.reg j

/-- `s'` agrees with `s` on everything the instruction `i` reads: the control state, the registers R23
says it reads and, for `LD` alone, data memory. -/
structure AgreeOnReads (i : Instr) (s s' : State) : Prop where
  pc : s'.pc = s.pc
  running : s'.running = s.running
  fault : s'.fault = s.fault
  unknownOpcode : s'.unknownOpcode = s.unknownOpcode
  reg : ∀ j ∈ regsRead i, s'.reg j = s.reg j
  mem : (∃ d a, i = .ld d a) → s'.mem = s.mem

section
variable {s s' t t' : State} {ws : List (Fin 4)}

theorem AgreeOnReads.initial {i : Instr} (h : AgreeOnReads i s s') : SameEffect [] s s' s s' :=
  ⟨h.pc, h.running, h.fault, id, fun _ => .inr ⟨rfl, rfl⟩, fun _ _ hj => absurd hj List.not_mem_nil⟩

/-! ### The same effect, operation by operation -/

theorem SameEffect.latchFault {vs : List (Fin 4)} (h : SameEffect ws s s' t t') (f : Fault) :
    SameEffect vs s s' (t.latchFault f) (t'.latchFault f) :=
  ⟨h.pc, h.running, by simp [h.pc], h.mem, h.reg, nofun⟩

theorem SameEffect.setPc (h : SameEffect ws s s' t t') (k : Int) :
    SameEffect ws s s' (t.setPc k) (t'.setPc k) :=
  ⟨rfl, h.running, h.fault, h.mem, h.reg, h.written⟩

theorem SameEffect.clearRunning (h : SameEffect ws s s' t t') :
    SameEffect ws s s' t.clearRunning t'.clearRunning :=
  ⟨h.pc, rfl, h.fault, h.mem, h.reg, h.written⟩

theorem SameEffect.write (h : SameEffect ws s s' s s') (a : Nat) (w : Word) :
    SameEffect ws s s' (s.setMem (s.mem.write a w)) (s'.setMem (s'.mem.write a w)) :=
  ⟨h.pc, h.running, h.fault, fun hm => congrArg (Memory.write · a w) hm, h.reg, h.written⟩

theorem SameEffect.setReg {d : RegSel} {j : Fin 4} (h : SameEffect [] s s' t t')
    (hd : regIdx d = .ok j) (w : Word) :
    SameEffect (selected d) s s' (t.setReg j w) (t'.setReg j w) where
  pc := h.pc
  running := h.running
  fault := h.fault
  mem := h.mem
  reg k := by
    by_cases hk : k = j
    · subst hk
      exact .inl (by simp)
    · rw [State.setReg_reg_other _ _ _ _ hk, State.setReg_reg_other _ _ _ _ hk]
      exact h.reg k
  written _ k hk := by
    rw [selected_of_ok hd, List.mem_singleton] at hk
    subst hk
    simp

/-! ### The same effect, line by line -/

theorem useValue_both {α : Type} {e : Except Fault α} {k k' : α → Outcome}
    {vs : List (Fin 4)} (h : SameEffect vs s s' t t')
    (hk : ∀ v, e = .ok v → BothAnswer (SameEffect ws s s') (k v) (k' v)) :
    BothAnswer (SameEffect ws s s') (useValue e t k) (useValue e t' k') := by
  cases e with
  | ok v => exact hk v rfl
  | error f => exact ⟨_, _, rfl, rfl, h.latchFault f⟩

theorem useEa_both {a : AddrOp} {k k' : Int → Outcome} {vs : List (Fin 4)}
    (h : SameEffect vs s s' t t') (ha : ea a t' = ea a t)
    (hk : ∀ v, BothAnswer (SameEffect ws s s') (k v) (k' v)) :
    BothAnswer (SameEffect ws s s') (useEa a t k) (useEa a t' k') := by
  unfold useEa
  rw [ha]
  exact useValue_both h fun v _ => hk v

/-- A store answers alike in two memories, whatever they hold. -/
theorem useMemWrite_both (h : SameEffect [] s s' s s') (v : Int) (w : Word) :
    BothAnswer (SameEffect [] s s') (useValue (memWrite s v w) s .next)
      (useValue (memWrite s' v w) s' .next) := by
  unfold memWrite
  split
  · exact ⟨_, _, rfl, rfl, h.write v.toNat w⟩
  · exact ⟨_, _, rfl, rfl, h.latchFault _⟩

/-- Both three-register instructions. -/
theorem threeReg_both {d a b : RegSel} (g : Word → Word → Word) (h : SameEffect [] s s' s s')
    (hr : ∀ j ∈ selected a ++ selected b, s'.reg j = s.reg j) :
    BothAnswer (SameEffect (selected d) s s')
      (useReg d s fun i => useReg a s fun j => useReg b s fun k =>
        .next (s.setReg i (g (s.reg j) (s.reg k))))
      (useReg d s' fun i => useReg a s' fun j => useReg b s' fun k =>
        .next (s'.setReg i (g (s'.reg j) (s'.reg k)))) := by
  refine useValue_both h fun i hi => useValue_both h fun j hj => useValue_both h fun k hk => ?_
  rw [hr j (by simp [selected_of_ok hj]), hr k (by simp [selected_of_ok hk])]
  exact ⟨_, _, rfl, rfl, h.setReg hi _⟩

/-- R120, R121: the effective address depends on the base register alone, and on none with base `$0`. -/
theorem ea_eq_of_baseRead {a : AddrOp} (h : ∀ j ∈ baseRead a, s'.reg j = s.reg j) :
    ea a s' = ea a s := by
  match a with
  | .noMatch => rfl
  | .regOff off 0 => rfl
  | .regOff off (b + 1) =>
    cases hb : regIdx (.idx (b + 1)) with
    | ok j => simp only [ea, hb, h j (by simp [baseRead, selected_of_ok hb])]
    | error f => simp only [ea, hb]

theorem branchTo_both (h : SameEffect [] s s' s s') (g : BzTgt) :
    BothAnswer (SameEffect [] s s') (branchTo g s) (branchTo g s') := by
  cases g with
  | known k => exact ⟨_, _, rfl, rfl, h.setPc k⟩
  | undefined name => exact ⟨_, _, rfl, rfl, h.latchFault _⟩

theorem jumpTo_both {g : BalTgt} (h : SameEffect ws s s' t t')
    (hg : ∀ a, g = .addr a → ea a t' = ea a t) :
    BothAnswer (SameEffect ws s s') (jumpTo g t) (jumpTo g t') := by
  cases g with
  | known k => exact ⟨_, _, rfl, rfl, h.setPc k⟩
  | addr a => exact useEa_both h (hg a rfl) fun v => ⟨_, _, rfl, rfl, h.setPc v⟩

/-- The link may itself be the base (R164), and reads alike in both states once it is written. -/
theorem ea_setReg_eq {a : AddrOp} (h : ∀ j ∈ baseRead a, s'.reg j = s.reg j) (i : Fin 4) (w : Word) :
    ea a (s'.setReg i w) = ea a (s.setReg i w) :=
  ea_eq_of_baseRead fun j hj => by rw [State.setReg_reg, State.setReg_reg, h j hj]

/-! ### The same effect of an instruction -/

/-- R22, R23, R32: executed in two states that agree on what it reads, an instruction has the same
effect. -/
theorem exec_both {i : Instr} (h : AgreeOnReads i s s') :
    BothAnswer (SameEffect (regsWritten i) s s') (exec i s) (exec i s') := by
  have h0 := h.initial
  cases i with
  | lda d a =>
    exact useValue_both h0 fun j hj => useEa_both h0 (ea_eq_of_baseRead h.reg) fun v =>
      ⟨_, _, rfl, rfl, h0.setReg hj _⟩
  | ld d a =>
    refine useValue_both h0 fun j hj => useEa_both h0 (ea_eq_of_baseRead h.reg) fun v => ?_
    have hread : memRead s' v = memRead s v := by rw [memRead, h.mem ⟨d, a, rfl⟩, memRead]
    rw [hread]
    exact useValue_both h0 fun w _ => ⟨_, _, rfl, rfl, h0.setReg hj w⟩
  | st r a =>
    refine useValue_both h0 fun j hj => useEa_both h0
      (ea_eq_of_baseRead fun k hk => h.reg k (List.mem_append_right _ hk)) fun v => ?_
    rw [h.reg j (List.mem_append_left _ (by simp [selected_of_ok hj]))]
    exact useMemWrite_both h0 v _
  | add d a b => exact threeReg_both addWord h0 h.reg
  | slt d a b => exact threeReg_both sltWord h0 h.reg
  | bz c g =>
    refine useValue_both h0 fun j hj => ?_
    rw [h.reg j (by simp [regsRead, selected_of_ok hj])]
    split
    · exact branchTo_both h0 g
    · exact ⟨_, _, rfl, rfl, h0⟩
  | bal l g =>
    refine useValue_both h0 fun j hj => ?_
    rw [h.pc]
    refine jumpTo_both (h0.setReg hj _) ?_
    rintro a rfl
    exact ea_setReg_eq h.reg j _
  | hlt => exact ⟨_, _, rfl, rfl, h0.clearRunning⟩
  | unrecognized tag =>
    simp only [exec, execUnrecognized, h.unknownOpcode]
    split
    · exact ⟨_, _, rfl, rfl, h0⟩
    · exact ⟨_, _, rfl, rfl, h0.latchFault _⟩

theorem exec_sameEffect {i : Instr} (h : AgreeOnReads i s s') (he : exec i s = .next t) :
    ∃ t', exec i s' = .next t' ∧ SameEffect (regsWritten i) s s' t t' := by
  obtain ⟨_, t', ht, ht', hsame⟩ := exec_both h
  cases he.symm.trans ht
  exact ⟨t', ht', hsame⟩

end

/-! ### The obligations -/

/-- Settles O44: the frame of the registers written, and the same effect in states that differ in other
registers than those read. -/
theorem registersReadAndWritten : Obligations.RegistersReadAndWritten := by
  refine ⟨fun i s t he j hj => (exec_effect he).reg_of_not_written hj, fun i s t q hq he => ?_⟩
  have hagree : AgreeOnReads i s { s with regs := q } := ⟨rfl, rfl, rfl, rfl, hq, fun _ => rfl⟩
  obtain ⟨u, hu, hsame⟩ := exec_sameEffect hagree he
  have hprog : SameProgram s u := (exec_effect hu).sameProgram
  exact ⟨u, hu, hsame.pc, hsame.running, hsame.mem rfl, hsame.fault,
    (exec_effect he).sameProgram.symm.trans hprog, fun _ => hsame.written⟩

/-- A step changes no cell but the one the instruction it executes stores to. -/
theorem step_storesTo_of_read_ne {s t : State} (h : step s = .next t) {a : Nat}
    (ha : t.mem.read a ≠ s.mem.read a) : ∃ i, Executes s i ∧ StoresTo i s.advancePc (a : Int) := by
  obtain ⟨-, ⟨-, -, rfl⟩ | ⟨-, -, ⟨op, n, -, rfl⟩ | ⟨i, hi, he⟩⟩⟩ := step_next_executes h
  · exact absurd rfl ha
  · exact absurd rfl ha
  · exact ⟨i, hi, (exec_effect he).storesTo_of_read_ne ha⟩

/-- Settles O45: a changed cell is a store's, and every instruction but `LD` has the same effect in
states that differ in memory alone. -/
theorem onlyStWritesAndOnlyLdReadsMemory : Obligations.OnlyStWritesAndOnlyLdReadsMemory := by
  refine ⟨fun _ => rfl, fun s t h a ha => step_storesTo_of_read_ne h ha, fun i s t m hi he => ?_⟩
  have hagree : AgreeOnReads i s (s.setMem m) :=
    ⟨rfl, rfl, rfl, rfl, fun _ _ => rfl, fun ⟨d, a, hld⟩ => absurd hld (hi d a)⟩
  obtain ⟨u, hu, hsame⟩ := exec_sameEffect hagree he
  have hregs : u.regs = t.regs := Regs.ext_get fun j => by
    rcases hsame.reg j with h | ⟨ht, hu⟩
    · exact h
    · exact hu.trans ht.symm
  exact ⟨u, hu, hregs, hsame.pc, hsame.running, hsame.fault⟩

end Sys2Proof.Machine
end

section
/-! The memory family: what reads and writes of data memory answer at any integer address (R42 to R44). -/

namespace Sys2Proof.Machine

section
variable {addr : Int}

/-! ### The answer in range and out of range -/

theorem memRead_of_inDataRange (h : inDataRange addr) (s : State) :
    memRead s addr = .ok (s.mem.read addr.toNat) := if_pos h

theorem memRead_of_not_inDataRange (h : ¬ inDataRange addr) (s : State) :
    memRead s addr = .error (.addressOutOfRangeFailure addr) := if_neg h

theorem memWrite_of_inDataRange (h : inDataRange addr) (s : State) (v : Word) :
    memWrite s addr v = .ok (s.setMem (s.mem.write addr.toNat v)) := if_pos h

theorem memWrite_of_not_inDataRange (h : ¬ inDataRange addr) (s : State) (v : Word) :
    memWrite s addr v = .error (.addressOutOfRangeFailure addr) := if_neg h

/-- R43: the cell written reads back as the value written. -/
theorem memRead_setMem_write (h : inDataRange addr) (s : State) (v : Word) :
    memRead (s.setMem (s.mem.write addr.toNat v)) addr = .ok v := by
  rw [memRead_of_inDataRange h, State.setMem_mem, Memory.read_write_same]

theorem sameMemoryExcept_setMem_write (s : State) (a : Nat) (v : Word) :
    SameMemoryExcept a s (s.setMem (s.mem.write a v)) :=
  fun _ hb => Memory.read_write_other s.mem hb v

/-- R44: the addresses below 0 and above 127 are those out of range. -/
theorem not_inDataRange_iff : ¬ inDataRange addr ↔ addr < 0 ∨ 127 < addr := by
  rw [inDataRange]
  omega

end

/-! ### The obligation -/

/-- Settles O22: in range the write replaces one cell of the memory; out of range neither operation gets
past the test. -/
theorem memoryReadAndWrite : Obligations.MemoryReadAndWrite := by
  intro s addr v
  refine ⟨fun h0 h1 => ?_, fun hout => ?_⟩
  · have hr : inDataRange addr := ⟨h0, h1⟩
    exact ⟨memRead_of_inDataRange hr s, _, memWrite_of_inDataRange hr s v, memRead_setMem_write hr s v,
      sameMemoryExcept_setMem_write s _ v, rfl, rfl, ⟨rfl, rfl⟩, ⟨rfl, rfl, rfl⟩⟩
  · have hr : ¬ inDataRange addr := not_inDataRange_iff.mpr hout
    exact ⟨memRead_of_not_inDataRange hr s, memWrite_of_not_inDataRange hr s v⟩

end Sys2Proof.Machine
end

section
/-! The encoding family, first part: the binary form. The decoder by opcode (R78), the words the encoder
packs (R74, R81), and that encoding and decoding undo each other up to ignored bits (R80). -/

namespace Sys2Proof

section
variable {w : Word}

/-! ### Fields of a word -/

theorem slice_15_12_le (w : Word) : slice w 15 12 ≤ 15 := Nat.le_of_lt_succ (slice_lt w 15 12)
theorem slice_11_10_le (w : Word) : slice w 11 10 ≤ 3 := Nat.le_of_lt_succ (slice_lt w 11 10)
theorem slice_9_8_le (w : Word) : slice w 9 8 ≤ 3 := Nat.le_of_lt_succ (slice_lt w 9 8)
theorem slice_7_6_le (w : Word) : slice w 7 6 ≤ 3 := Nat.le_of_lt_succ (slice_lt w 7 6)
theorem slice_7_0_lt (w : Word) : slice w 7 0 < 256 := slice_lt w 7 0

/-- R76: the sign-extended value of an 8-bit field. -/
theorem sext8_range {n : Nat} (h : n < 256) : -128 ≤ sext8 n ∧ sext8 n ≤ 127 := by
  unfold sext8
  split <;> omega

/-- A word packed from fields in their ranges has those fields (R74). -/
theorem slice_packWord {op r b low : Nat} (hop : op ≤ 15) (hr : r ≤ 3) (hb : b ≤ 3) (hlow : low < 256) :
    slice (packWord op r b low) 15 12 = op ∧ slice (packWord op r b low) 11 10 = r ∧
    slice (packWord op r b low) 9 8 = b ∧ slice (packWord op r b low) 7 6 = low / 64 ∧
    slice (packWord op r b low) 7 0 = low := by
  simp only [slice, packWord, BitVec.toNat_ofNat, Nat.reduceSub, Nat.reduceAdd, Nat.reducePow]
  omega

/-- Packing a word's own fields gives the word back. -/
theorem packWord_slices (w : Word) :
    packWord (slice w 15 12) (slice w 11 10) (slice w 9 8) (slice w 7 0) = w := by
  rw [packWord, slice_fields, BitVec.ofNat_toNat, BitVec.setWidth_eq]

/-! ### The decoder, opcode by opcode (R78) -/

theorem decodeWord_lda (h : slice w 15 12 = 0) :
    decodeWord w = .lda (.idx (slice w 11 10)) (wordAddr w) := by simp only [decodeWord, h]

theorem decodeWord_ld (h : slice w 15 12 = 1) :
    decodeWord w = .ld (.idx (slice w 11 10)) (wordAddr w) := by simp only [decodeWord, h]

theorem decodeWord_st (h : slice w 15 12 = 2) :
    decodeWord w = .st (.idx (slice w 11 10)) (wordAddr w) := by simp only [decodeWord, h]

theorem decodeWord_add (h : slice w 15 12 = 3) :
    decodeWord w = .add (.idx (slice w 11 10)) (.idx (slice w 9 8)) (.idx (slice w 7 6)) := by
  simp only [decodeWord, h]

theorem decodeWord_slt (h : slice w 15 12 = 4) :
    decodeWord w = .slt (.idx (slice w 11 10)) (.idx (slice w 9 8)) (.idx (slice w 7 6)) := by
  simp only [decodeWord, h]

theorem decodeWord_bz (h : slice w 15 12 = 5) :
    decodeWord w = .bz (.idx (slice w 11 10)) (.known (sext8 (slice w 7 0))) := by simp only [decodeWord, h]

theorem decodeWord_bal (h : slice w 15 12 = 6) :
    decodeWord w = .bal (.idx (slice w 11 10)) (.addr (wordAddr w)) := by simp only [decodeWord, h]

theorem decodeWord_hlt (h : slice w 15 12 = 7) : decodeWord w = .hlt := by simp only [decodeWord, h]

theorem decodeWord_reserved (h : 8 ≤ slice w 15 12) :
    decodeWord w = .unrecognized (.number (slice w 15 12)) := by
  unfold decodeWord
  split
  case h_9 => rfl
  all_goals omega

/-- Settles O5: one equation of the decoder per row of the opcode table, and the ranges of the fields. -/
theorem decoderFollowsOpcodeTable : Obligations.DecoderFollowsOpcodeTable := fun w =>
  ⟨decodeWord_lda, decodeWord_ld, decodeWord_st, decodeWord_add, decodeWord_slt, decodeWord_bz,
    decodeWord_bal, decodeWord_hlt, decodeWord_reserved, slice_15_12_le w, slice_11_10_le w,
    slice_9_8_le w, slice_7_6_le w, sext8_range (slice_7_0_lt w)⟩

/-- Settles O6: the decoder evaluates on each of the ten words. -/
theorem spelledOutWordsDecode : Obligations.SpelledOutWordsDecode := by
  unfold Obligations.SpelledOutWordsDecode
  decide

/-! ### The fields the encoder writes (R81) -/

theorem encReg_eq_some {r : RegSel} {n : Nat} : encReg r = some n ↔ r = .idx n ∧ n ≤ 3 := by
  cases r with
  | badReg => simp [encReg]
  | idx m =>
    simp only [encReg, Option.ite_none_right_eq_some, Option.some.injEq, RegSel.idx.injEq]
    constructor
    · rintro ⟨h, rfl⟩
      exact ⟨rfl, h⟩
    · rintro ⟨rfl, h⟩
      exact ⟨h, rfl⟩

/-- An immediate field and the value it sign-extends to determine each other. -/
theorem encImm_eq_some {k : Int} {m : Nat} : encImm k = some m ↔ k = sext8 m ∧ m < 256 := by
  have hlow : (slice (toWord k) 7 0 : Int) = k % 256 := by
    have h := unsigned_toWord k
    simp only [unsigned] at h
    simp only [slice, Nat.reduceSub, Nat.reduceAdd, Nat.reducePow, Nat.div_one]
    omega
  simp only [encImm, sext8, Option.ite_none_right_eq_some, Option.some.injEq]
  split <;> omega

theorem encReg_isSome (r : RegSel) : (encReg r).isSome = r.encodable := by
  cases r with
  | badReg => rfl
  | idx n =>
    simp only [encReg, RegSel.encodable]
    split <;> simp [*]

theorem encImm_isSome (k : Int) : (encImm k).isSome = decide (-128 ≤ k ∧ k ≤ 127) := by
  unfold encImm
  split <;> simp [*]

/-! ### Each format read back (R74) -/

/-- Format I: the decoder finds the opcode and the operands where the encoder put them. -/
theorem encI_eq_some {op : Nat} {r : RegSel} {a : AddrOp} (hop : op ≤ 15)
    (h : encI op r a = some w) :
    slice w 15 12 = op ∧ r = .idx (slice w 11 10) ∧ a = wordAddr w := by
  unfold encI at h
  split at h
  · split at h
    · next n b imm hr hb himm =>
      cases h
      obtain ⟨rfl, hn⟩ := encReg_eq_some.mp hr
      obtain ⟨hb', hb⟩ := encReg_eq_some.mp hb
      obtain ⟨rfl, hlow⟩ := encImm_eq_some.mp himm
      obtain ⟨fop, fr, fb, -, flow⟩ := slice_packWord hop hn hb hlow
      cases hb'
      exact ⟨fop, by rw [fr], by rw [wordAddr, flow, fb]⟩
    · cases h
  · cases h

/-- Format R. -/
theorem encR_eq_some {op : Nat} {d a b : RegSel} (hop : op ≤ 15) (h : encR op d a b = some w) :
    slice w 15 12 = op ∧ d = .idx (slice w 11 10) ∧ a = .idx (slice w 9 8) ∧
      b = .idx (slice w 7 6) := by
  unfold encR at h
  split at h
  · next n m k hd ha hb =>
    cases h
    obtain ⟨rfl, hn⟩ := encReg_eq_some.mp hd
    obtain ⟨rfl, hm⟩ := encReg_eq_some.mp ha
    obtain ⟨rfl, hk⟩ := encReg_eq_some.mp hb
    obtain ⟨fop, fd, fa, fb, -⟩ := slice_packWord hop hn hm (show k * 64 < 256 by omega)
    exact ⟨fop, by rw [fd], by rw [fa], by rw [fb, Nat.mul_div_cancel k (by decide)]⟩
  · cases h

/-- Format B. -/
theorem encB_eq_some {op : Nat} {c : RegSel} {g : BzTgt} (hop : op ≤ 15)
    (h : encB op c g = some w) :
    slice w 15 12 = op ∧ c = .idx (slice w 11 10) ∧ g = .known (sext8 (slice w 7 0)) := by
  unfold encB at h
  split at h
  · split at h
    · next n imm hc himm =>
      cases h
      obtain ⟨rfl, hn⟩ := encReg_eq_some.mp hc
      obtain ⟨rfl, hlow⟩ := encImm_eq_some.mp himm
      obtain ⟨fop, fc, -, -, flow⟩ := slice_packWord hop hn (Nat.zero_le 3) hlow
      exact ⟨fop, by rw [fc], by rw [flow]⟩
    · cases h
  · cases h

/-! ### Where the encoder is defined (R81) -/

theorem AddrOp.encodable_regOff (off : Int) (b : Nat) :
    (AddrOp.regOff off b).encodable = ((encImm off).isSome && (encReg (.idx b)).isSome) := by
  rw [encImm_isSome, encReg_isSome, AddrOp.encodable, RegSel.encodable, ← Bool.decide_and]
  exact decide_eq_decide.mpr and_assoc.symm

theorem encI_isSome (op : Nat) (r : RegSel) (a : AddrOp) :
    (encI op r a).isSome = (r.encodable && a.encodable) := by
  cases a with
  | noMatch => exact (Bool.and_false _).symm
  | regOff off b =>
    rw [AddrOp.encodable_regOff, ← encReg_isSome, encI]
    cases encReg r <;> cases encReg (.idx b) <;> cases encImm off <;> rfl

theorem encR_isSome (op : Nat) (d a b : RegSel) :
    (encR op d a b).isSome = (d.encodable && a.encodable && b.encodable) := by
  rw [← encReg_isSome, ← encReg_isSome, ← encReg_isSome, encR]
  cases encReg d <;> cases encReg a <;> cases encReg b <;> rfl

theorem encB_isSome (op : Nat) (c : RegSel) (g : BzTgt) :
    (encB op c g).isSome = (c.encodable && g.encodable) := by
  cases g with
  | undefined name => exact (Bool.and_false _).symm
  | known k =>
    rw [BzTgt.encodable, ← encReg_isSome, ← encImm_isSome, encB]
    cases encReg c <;> cases encImm k <;> rfl

/-- A known `BAL` target is encoded as an address with base `$0`, if it is not negative. -/
theorem encode_bal_known (l : RegSel) (k : Int) :
    encode (.bal l (.known k)) = if 0 ≤ k then encI 6 l (.regOff k 0) else none := rfl

theorem encode_isSome (i : Instr) : (encode i).isSome = i.encodable := by
  cases i with
  | lda r a | ld r a | st r a => exact encI_isSome _ r a
  | add d a b | slt d a b => exact encR_isSome _ d a b
  | bz c g => exact encB_isSome _ c g
  | bal l g =>
    cases g with
    | addr a => exact encI_isSome _ l a
    | known k =>
      rw [encode_bal_known, Instr.encodable, BalTgt.encodable]
      split
      · next hk =>
        have ha : (AddrOp.regOff k 0).encodable = decide (0 ≤ k ∧ k ≤ 127) := by
          rw [AddrOp.encodable, decide_eq_decide]
          omega
        rw [encI_isSome, ha]
      · next hk => simp [hk]
  | hlt => rfl
  | unrecognized tag =>
    cases tag with
    | name s => rfl
    | number n =>
      simp only [encode, Instr.encodable]
      split <;> simp [*]

/-! ### Decoding undoes encoding (R81) -/

theorem decodeWord_encode {i : Instr} (h : encode i = some w) : decodeWord w = i.binaryForm := by
  cases i with
  | lda d a =>
    obtain ⟨hop, rfl, rfl⟩ := encI_eq_some (by decide) h
    exact decodeWord_lda hop
  | ld d a =>
    obtain ⟨hop, rfl, rfl⟩ := encI_eq_some (by decide) h
    exact decodeWord_ld hop
  | st r a =>
    obtain ⟨hop, rfl, rfl⟩ := encI_eq_some (by decide) h
    exact decodeWord_st hop
  | add d a b =>
    obtain ⟨hop, rfl, rfl, rfl⟩ := encR_eq_some (by decide) h
    exact decodeWord_add hop
  | slt d a b =>
    obtain ⟨hop, rfl, rfl, rfl⟩ := encR_eq_some (by decide) h
    exact decodeWord_slt hop
  | bz c g =>
    obtain ⟨hop, rfl, rfl⟩ := encB_eq_some (by decide) h
    exact decodeWord_bz hop
  | bal l g =>
    cases g with
    | addr a =>
      obtain ⟨hop, rfl, rfl⟩ := encI_eq_some (by decide) h
      exact decodeWord_bal hop
    | known k =>
      rw [encode_bal_known, Option.ite_none_right_eq_some] at h
      obtain ⟨hop, rfl, ha⟩ := encI_eq_some (by decide) h.2
      rw [decodeWord_bal hop, Instr.binaryForm, ha]
  | hlt =>
    cases h
    rfl
  | unrecognized tag =>
    cases tag with
    | name s => cases h
    | number n =>
      simp only [encode, Option.ite_none_right_eq_some, Option.some.injEq] at h
      obtain ⟨hn, rfl⟩ := h
      obtain ⟨hop, -⟩ :=
        slice_packWord hn.2 (Nat.zero_le 3) (Nat.zero_le 3) (show 0 < 256 by decide)
      rw [decodeWord_reserved (by omega), hop]
      rfl

/-- R163: the binary form of an instruction has the instruction's effect. -/
theorem exec_binaryForm (i : Instr) (s : Machine.State) :
    Machine.exec i.binaryForm s = Machine.exec i s := by
  unfold Instr.binaryForm
  split <;> rfl

/-- Settles O7: what the encoder writes is read back field by field, and the binary form has the same
effect. -/
theorem decodeOfEncodeIsTheInstruction : Obligations.DecodeOfEncodeIsTheInstruction := by
  refine fun i => ⟨by rw [encode_isSome], fun w h => ⟨decodeWord_encode h, fun s => ?_⟩⟩
  rw [decodeWord_encode h, exec_binaryForm]

/-! ### Encoding what a word decodes to (R80) -/

theorem encReg_idx {n : Nat} (h : n ≤ 3) : encReg (.idx n) = some n :=
  encReg_eq_some.mpr ⟨rfl, h⟩

theorem encImm_sext8 (w : Word) : encImm (sext8 (slice w 7 0)) = some (slice w 7 0) :=
  encImm_eq_some.mpr ⟨rfl, slice_7_0_lt w⟩

/-- Format R's fields are bits 15:6, the rest 0. -/
theorem packWord_formatR (op d a b : Nat) :
    packWord op d a (b * 64) = BitVec.ofNat 16 ((op * 64 + d * 16 + a * 4 + b) * 64) :=
  congrArg (BitVec.ofNat 16) (by omega)

/-- Format B's fields are bits 15:10 and 7:0, the rest 0. -/
theorem packWord_formatB (op c imm : Nat) :
    packWord op c 0 imm = BitVec.ofNat 16 ((op * 4 + c) * 1024 + imm) :=
  congrArg (BitVec.ofNat 16) (by omega)

/-- The opcode alone, bits 11:0 written as 0. -/
theorem packWord_opcode (op : Nat) : packWord op 0 0 0 = BitVec.ofNat 16 (op * 4096) :=
  congrArg (BitVec.ofNat 16) (by omega)

theorem encI_slices {op : Nat} (h : slice w 15 12 = op) :
    encI op (.idx (slice w 11 10)) (wordAddr w) = some w := by
  subst h
  simp only [encI, wordAddr, encReg_idx (slice_11_10_le w), encReg_idx (slice_9_8_le w),
    encImm_sext8, packWord_slices]

theorem encR_slices {op : Nat} (h : slice w 15 12 = op) :
    encR op (.idx (slice w 11 10)) (.idx (slice w 9 8)) (.idx (slice w 7 6)) =
      some (BitVec.ofNat 16 (slice w 15 6 * 64)) := by
  subst h
  simp only [encR, encReg_idx (slice_11_10_le w), encReg_idx (slice_9_8_le w),
    encReg_idx (slice_7_6_le w), packWord_formatR, slice_15_6]

theorem encB_slices {op : Nat} (h : slice w 15 12 = op) :
    encB op (.idx (slice w 11 10)) (.known (sext8 (slice w 7 0))) =
      some (BitVec.ofNat 16 (slice w 15 10 * 1024 + slice w 7 0)) := by
  subst h
  simp only [encB, encReg_idx (slice_11_10_le w), encImm_sext8, packWord_formatB, slice_15_10]

/-- Opcodes 7 to 15: the encoder writes the opcode alone. -/
theorem encode_decodeWord_noFields (h : 7 ≤ slice w 15 12) :
    encode (decodeWord w) = some (BitVec.ofNat 16 (slice w 15 12 * 4096)) := by
  rcases h.eq_or_lt with h | h
  · rw [decodeWord_hlt h.symm, encode, packWord_opcode, h]
  · rw [decodeWord_reserved h, encode, if_pos ⟨h, slice_15_12_le w⟩, packWord_opcode]

/-- Encoding what a word decodes to gives the word with its ignored bits 0 (R74, R80). -/
theorem encode_decodeWord (w : Word) :
    encode (decodeWord w) = some (Machine.significantBits w) := by
  unfold Machine.significantBits
  split
  · next h => rw [decodeWord_lda h]; exact encI_slices h
  · next h => rw [decodeWord_ld h]; exact encI_slices h
  · next h => rw [decodeWord_st h]; exact encI_slices h
  · next h => rw [decodeWord_bal h]; exact encI_slices h
  · next h => rw [decodeWord_add h]; exact encR_slices h
  · next h => rw [decodeWord_slt h]; exact encR_slices h
  · next h => rw [decodeWord_bz h]; exact encB_slices h
  · simp only [imp_false] at *
    exact encode_decodeWord_noFields (by omega)

/-- The binary form has no `BAL` to a known target. -/
theorem binaryForm_decodeWord (w : Word) : (decodeWord w).binaryForm = decodeWord w := by
  unfold decodeWord
  split <;> rfl

theorem decodeWord_significantBits (w : Word) :
    decodeWord (Machine.significantBits w) = decodeWord w :=
  (decodeWord_encode (encode_decodeWord w)).trans (binaryForm_decodeWord w)

/-- Settles O8: a word and its significant bits determine the same instruction. -/
theorem ignoredBitsTakeNoPart : Obligations.IgnoredBitsTakeNoPart := by
  refine ⟨encode_decodeWord, fun w v => ⟨fun h => ?_, fun h => ?_⟩⟩
  · have henc := congrArg encode h
    rwa [encode_decodeWord, encode_decodeWord, Option.some.injEq] at henc
  · rw [← decodeWord_significantBits w, h, decodeWord_significantBits]

/-! ### What a word decodes to -/

theorem encodable_decodeWord (w : Word) : (decodeWord w).encodable = true := by
  rw [← encode_isSome, encode_decodeWord]
  rfl

/-- R70, R81: the instructions with a binary form are within the ranges of the type. -/
theorem Instr.wf_of_encodable {i : Instr} (h : i.encodable = true) : i.wf = true := by
  cases i with
  | lda d a => exact Laws.EncodableWellFormed.lda d a h
  | ld d a => exact Laws.EncodableWellFormed.ld d a h
  | st r a => exact Laws.EncodableWellFormed.st r a h
  | add d a b => exact Laws.EncodableWellFormed.add d a b h
  | slt d a b => exact Laws.EncodableWellFormed.slt d a b h
  | bz c g => exact Laws.EncodableWellFormed.bz c g h
  | bal l g => exact Laws.EncodableWellFormed.bal l g h
  | hlt => rfl
  | unrecognized tag => exact Laws.EncodableWellFormed.unrecognized tag h

end

end Sys2Proof
end

section
/-! The encoding family, second part: the faults of the binary form (R198). An instruction that has a
binary form names valid registers and known targets, so of the faults only the range test of `LD` and
`ST` and the parameter `UNKNOWN_OPCODE` are left. -/

namespace Sys2Proof.Machine

/-- The faults an encodable instruction can raise: the address of an `LD` or `ST` out of range, or an
opcode number 8 to 15, if the parameter enables it. -/
def BinaryFault (u : UnknownOpcode) (i : Instr) (f : Fault) : Prop :=
  (∃ v, f = .addressOutOfRangeFailure v ∧ ¬ inDataRange v ∧
    ((∃ d a, i = .ld d a) ∨ ∃ d a, i = .st d a)) ∨
  ∃ n, f = .unrecognizedOpcode (.number n) ∧ 8 ≤ n ∧ n ≤ 15 ∧ u = .fault ∧
    i = .unrecognized (.number n)

section
variable {s t : State} {i : Instr} {f : Fault}

/-! ### Encodable operands raise no fault -/

theorem regIdx_ne_error {r : RegSel} (h : r.encodable = true) : regIdx r ≠ .error f := by
  intro he
  cases r with
  | badReg => cases h
  | idx n =>
    have hle : n ≤ 3 := of_decide_eq_true h
    have hge : 4 ≤ n := (regIdx_error he).2 n rfl
    omega

theorem ea_ne_error {a : AddrOp} (h : a.encodable = true) : ea a s ≠ .error f := by
  intro he
  obtain ⟨off, b, rfl, hb, -⟩ := ea_error he
  obtain ⟨-, -, hb'⟩ := of_decide_eq_true h
  omega

theorem threeReg_ne_error {d a b : RegSel} (h : (d.encodable && a.encodable && b.encodable) = true) :
    ¬ (regIdx d = .error f ∨ ∃ i, regIdx d = .ok i ∧
      (regIdx a = .error f ∨ ∃ j, regIdx a = .ok j ∧ regIdx b = .error f)) := by
  simp only [Bool.and_eq_true] at h
  obtain ⟨⟨hd, ha⟩, hb⟩ := h
  rintro (hf | ⟨_, -, hf | ⟨_, -, hf⟩⟩)
  · exact regIdx_ne_error hd hf
  · exact regIdx_ne_error ha hf
  · exact regIdx_ne_error hb hf

/-! ### Where a fault of an encodable instruction comes from -/

theorem exec_binaryFault (hi : i.encodable = true) (h : exec i s = .next t) :
    t.fault = s.fault ∨ ∃ f, t = s.latchFault f ∧ BinaryFault s.unknownOpcode i f := by
  cases i with
  | lda d a =>
    obtain ⟨hd, ha⟩ := Bool.and_eq_true_iff.mp hi
    rcases execLda_cases h with ⟨f, -, hf | ⟨_, -, hf⟩⟩ | ⟨_, _, -, -, rfl⟩
    · exact absurd hf (regIdx_ne_error hd)
    · exact absurd hf (ea_ne_error ha)
    · exact .inl rfl
  | ld d a =>
    obtain ⟨hd, ha⟩ := Bool.and_eq_true_iff.mp hi
    rcases execLd_cases h with ⟨f, rfl, hf | ⟨_, -, hf | ⟨v, -, hf⟩⟩⟩ | ⟨_, _, -, -, -, rfl⟩
    · exact absurd hf (regIdx_ne_error hd)
    · exact absurd hf (ea_ne_error ha)
    · obtain ⟨hv, rfl⟩ := memRead_error hf
      exact .inr ⟨_, rfl, .inl ⟨v, rfl, hv, .inl ⟨d, a, rfl⟩⟩⟩
    · exact .inl rfl
  | st r a =>
    obtain ⟨hr, ha⟩ := Bool.and_eq_true_iff.mp hi
    rcases execSt_cases h with ⟨f, rfl, hf | ⟨_, -, hf | ⟨v, -, hf⟩⟩⟩ | ⟨_, _, -, -, -, rfl⟩
    · exact absurd hf (regIdx_ne_error hr)
    · exact absurd hf (ea_ne_error ha)
    · obtain ⟨hv, rfl⟩ := memWrite_error hf
      exact .inr ⟨_, rfl, .inl ⟨v, rfl, hv, .inr ⟨r, a, rfl⟩⟩⟩
    · exact .inl rfl
  | add d a b =>
    rcases execAdd_cases h with ⟨f, -, hf⟩ | ⟨_, _, _, -, -, -, rfl⟩
    · exact absurd hf (threeReg_ne_error hi)
    · exact .inl rfl
  | slt d a b =>
    rcases execSlt_cases h with ⟨f, -, hf⟩ | ⟨_, _, _, -, -, -, rfl⟩
    · exact absurd hf (threeReg_ne_error hi)
    · exact .inl rfl
  | bz c g =>
    obtain ⟨hc, hg⟩ := Bool.and_eq_true_iff.mp hi
    rcases execBz_cases h with
      ⟨f, -, hf | ⟨_, _, -, -, rfl, -⟩⟩ | ⟨_, _, -, -, -, rfl⟩ | ⟨_, -, -, rfl⟩
    · exact absurd hf (regIdx_ne_error hc)
    · cases hg
    · exact .inl rfl
    · exact .inl rfl
  | bal l g =>
    obtain ⟨hl, hg⟩ := Bool.and_eq_true_iff.mp hi
    rcases execBal_cases h with
      ⟨f, hf, -⟩ | ⟨_, -, ⟨_, -, rfl⟩ | ⟨a, rfl, ⟨_, -, rfl⟩ | ⟨f, hf, -⟩⟩⟩
    · exact absurd hf (regIdx_ne_error hl)
    · exact .inl rfl
    · exact .inl rfl
    · exact absurd hf (ea_ne_error hg)
  | hlt =>
    cases execHlt_cases h
    exact .inl rfl
  | unrecognized tag =>
    rcases execUnrecognized_cases h with ⟨-, rfl⟩ | ⟨hu, rfl⟩
    · exact .inl rfl
    · cases tag with
      | name _ => cases hi
      | number n =>
        obtain ⟨h8, h15⟩ := of_decide_eq_true hi
        exact .inr ⟨_, rfl, .inr ⟨n, rfl, h8, h15, hu, rfl⟩⟩

/-! ### A step over a store of words -/

theorem nextDecoded_of_binaryStore {d : Decoded} (hb : BinaryStore s) (h : s.nextDecoded = some d) :
    ∃ w, .word w ∈ s.im ∧ d = .instr (decodeWord w) := by
  obtain ⟨si, hn, rfl⟩ := Option.map_eq_some_iff.mp h
  obtain ⟨-, -, hfetch⟩ := nextStored_some.mp hn
  have hmem := (fetch_some hfetch).2
  obtain ⟨w, rfl⟩ := hb si hmem
  exact ⟨w, hmem, rfl⟩

/-- R198: a step that faults over a store of words executed a word's instruction, and raised a fault of
the binary form. -/
theorem step_binaryFault (hb : BinaryStore s) (h : step s = .next t) {r : FaultRecord}
    (hr : t.fault = some r) :
    ∃ w, .word w ∈ s.im ∧ Executes s (decodeWord w) ∧
      BinaryFault s.unknownOpcode (decodeWord w) r.kind := by
  obtain ⟨hf, ⟨-, -, rfl⟩ | ⟨-, -, ⟨op, n, hn, -⟩ | ⟨i, hi, he⟩⟩⟩ := step_next_executes h
  · exact absurd (hf.symm.trans hr) (by simp)
  · obtain ⟨w, -, hw⟩ := nextDecoded_of_binaryStore hb hn
    cases hw
  · obtain ⟨w, hmem, hw⟩ := nextDecoded_of_binaryStore hb hi
    cases hw
    rcases exec_binaryFault (encodable_decodeWord w) he with ht | ⟨f, rfl, hfault⟩
    · exact absurd ((ht.trans hf).symm.trans hr) (by simp)
    · cases hr
      exact ⟨w, hmem, hi, hfault⟩

/-- Settles O50: the fault is one of the binary form, of the instruction the step executed. -/
theorem faultsOfTheBinaryForm : Obligations.FaultsOfTheBinaryForm := by
  intro s t r hb _ h hr
  obtain ⟨w, -, hex, ⟨v, hk, hv, hi⟩ | ⟨n, hk, h8, h15, hu, hi⟩⟩ := step_binaryFault hb h hr
  · refine .inl ⟨v, hk, not_inDataRange_iff.mp hv, ?_⟩
    rcases hi with ⟨d, a, hi⟩ | ⟨d, a, hi⟩
    · exact .inl ⟨d, a, hi ▸ hex⟩
    · exact .inr ⟨d, a, hi ▸ hex⟩
  · exact .inr ⟨n, hk, h8, h15, hu, hi ▸ hex⟩

/-! ### Runs without memory access -/

/-- Only opcode 1 decodes to `LD`, and only opcode 2 to `ST`. -/
theorem opcode_of_decodeWord_ld_or_st {w : Word}
    (h : (∃ d a, decodeWord w = .ld d a) ∨ ∃ d a, decodeWord w = .st d a) :
    slice w 15 12 = 1 ∨ slice w 15 12 = 2 := by
  unfold decodeWord at h
  split at h
  case h_2 hop => exact .inl hop
  case h_3 hop => exact .inr hop
  all_goals simp at h

/-- No step faults over words none of which is `LD` or `ST`, with `UNKNOWN_OPCODE = nop`. -/
theorem step_keeps_no_fault (hb : BinaryStore s) (hu : s.unknownOpcode = .nop)
    (hw : ∀ w, .word w ∈ s.im → slice w 15 12 ≠ 1 ∧ slice w 15 12 ≠ 2) (h : step s = .next t) :
    t.fault = none := by
  by_contra hne
  obtain ⟨r, hr⟩ := Option.ne_none_iff_exists'.mp hne
  obtain ⟨w, hmem, -, ⟨v, -, -, hi⟩ | ⟨n, -, -, -, hu', -⟩⟩ := step_binaryFault hb h hr
  · obtain ⟨h1, h2⟩ := hw w hmem
    exact (opcode_of_decodeWord_ld_or_st hi).elim h1 h2
  · cases hu.symm.trans hu'

end

/-- Settles O52, by the last step of the run: it began over the same program, and no step over that
program faults. -/
theorem programWithoutMemoryAccessNeverFaults :
    Obligations.ProgramWithoutMemoryAccessNeverFaults := by
  intro s hb hu hf hw t ht
  cases ht with
  | refl => exact hf
  | @step t' _ ht' h =>
    obtain ⟨him, -, hunknown⟩ := programIsNeverWritten s t' ht'
    rw [BinaryStore, ← him] at hb
    rw [← him] at hw
    exact step_keeps_no_fault hb (hunknown.trans hu) hw h

end Sys2Proof.Machine
end

section
/-! The encoding family, third part: the source form. What register, address and target tokens give (R63
to R68), and the decoding of a record by its opcode and its number of operands (R62, R69, R71). -/

namespace Sys2Proof

/-! ### Register tokens (R63) -/

section
variable {t : String} {c : Char}

theorem regToken_dollar (ht : t.toList = ['$', c]) :
    regToken t = if isDecDigit c then .idx (digitValue c) else .badReg := by
  simp only [regToken, ht]

theorem regToken_other (ht : ∀ c, t.toList ≠ ['$', c]) : regToken t = .badReg := by
  unfold regToken
  split
  · next c h => exact absurd h (ht c)
  · rfl

theorem regToken_eq_idx {n : Nat} :
    regToken t = .idx n ↔ ∃ c, t.toList = ['$', c] ∧ isDecDigit c = true ∧ n = digitValue c := by
  refine ⟨fun h => ?_, ?_⟩
  · by_cases ht : ∃ c, t.toList = ['$', c]
    · obtain ⟨c, ht⟩ := ht
      rw [regToken_dollar ht] at h
      split at h
      · next hc =>
        cases h
        exact ⟨c, ht, hc, rfl⟩
      · cases h
    · rw [regToken_other (not_exists.mp ht)] at h
      cases h
  · rintro ⟨c, ht, hc, rfl⟩
    rw [regToken_dollar ht, if_pos hc]

theorem regToken_eq_badReg (h : ¬ ∃ c, t.toList = ['$', c] ∧ isDecDigit c = true) :
    regToken t = .badReg := by
  cases hr : regToken t with
  | badReg => rfl
  | idx n =>
    obtain ⟨c, ht, hc, -⟩ := regToken_eq_idx.mp hr
    exact absurd ⟨c, ht, hc⟩ h

theorem regToken_wf (t : String) : (regToken t).wf = true := by
  cases hr : regToken t with
  | badReg => rfl
  | idx n =>
    obtain ⟨c, -, hc, rfl⟩ := regToken_eq_idx.mp hr
    exact decide_eq_true (digitValue_le hc)

end

/-- A digit by the order of characters. -/
theorem isDecDigit_eq_true {c : Char} : isDecDigit c = true ↔ '0' ≤ c ∧ c ≤ '9' :=
  decide_eq_true_iff

/-- Settles O10: the two cases of a token, with the digit by its code. -/
theorem registerTokenShape : Obligations.RegisterTokenShape := by
  refine ⟨fun t n => ?_, fun t h => regToken_eq_badReg ?_, rfl⟩
  · simp only [regToken_eq_idx, isDecDigit_eq_true, and_assoc]
    rfl
  · simpa only [isDecDigit_eq_true] using h

/-! ### Address tokens (R65, R66) -/

section
variable {sign : Int} {ds cs : List Char} {c : Char}

/-- The characters of an address token after its sign. -/
theorem addrTail_shape (hds : ds ≠ []) (hdigits : ∀ d ∈ ds, isDecDigit d = true)
    (hc : isDecDigit c = true) :
    addrTail sign (ds ++ ['(', '$', c, ')']) = .regOff (sign * (decimalValue ds : Int)) (digitValue c) := by
  have htake : (ds ++ ['(', '$', c, ')']).takeWhile isDecDigit = ds := by
    rw [List.takeWhile_append_of_pos hdigits, List.takeWhile_cons_of_neg (by decide), List.append_nil]
  have hdrop : (ds ++ ['(', '$', c, ')']).dropWhile isDecDigit = ['(', '$', c, ')'] := by
    rw [List.dropWhile_append_of_pos hdigits, List.dropWhile_cons_of_neg (by decide)]
  obtain ⟨d, ds, rfl⟩ := List.exists_cons_of_ne_nil hds
  rw [addrTail, htake, hdrop]
  exact if_pos hc

/-- Only text of that shape gives an address. -/
theorem addrTail_ne_noMatch (h : addrTail sign cs ≠ .noMatch) :
    ∃ ds c, ds ≠ [] ∧ (∀ d ∈ ds, isDecDigit d = true) ∧ isDecDigit c = true ∧
      cs = ds ++ ['(', '$', c, ')'] := by
  unfold addrTail at h
  split at h
  · exact absurd rfl h
  · next c hdrop hds =>
    split at h
    · next hc =>
      refine ⟨cs.takeWhile isDecDigit, c, hds, fun d hd => List.mem_takeWhile_imp hd, hc, ?_⟩
      rw [← hdrop, List.takeWhile_append_dropWhile]
    · exact absurd rfl h
  · exact absurd rfl h

theorem addrToken_minus {t : String} (ht : t.toList = '-' :: cs) : addrToken t = addrTail (-1) cs := by
  simp only [addrToken, ht]

theorem addrToken_no_minus {t : String} (h : t.toList.head? ≠ some '-') :
    addrToken t = addrTail 1 t.toList := by
  unfold addrToken
  split
  · next cs ht => simp [ht] at h
  · rfl

/-- R65: the value of a token of the right shape. -/
theorem addrToken_shape {neg : Bool} {t : String} (hds : ds ≠ [])
    (hdigits : ∀ d ∈ ds, isDecDigit d = true) (hc : isDecDigit c = true)
    (ht : t.toList = (if neg then ['-'] else []) ++ ds ++ ['(', '$', c, ')']) :
    addrToken t = .regOff ((if neg then -1 else 1) * (decimalValue ds : Int)) (digitValue c) := by
  cases neg with
  | true => exact (addrToken_minus ht).trans (addrTail_shape hds hdigits hc)
  | false =>
    have hhead : t.toList.head? ≠ some '-' := by
      obtain ⟨d, ds, rfl⟩ := List.exists_cons_of_ne_nil hds
      rintro h
      rw [ht] at h
      cases h
      exact absurd (hdigits '-' List.mem_cons_self) (by decide)
    rw [addrToken_no_minus hhead, ht]
    exact addrTail_shape hds hdigits hc

/-- R66: every token but those of the right shape is `NoMatch`. -/
theorem addrToken_ne_noMatch {t : String} (h : addrToken t ≠ .noMatch) :
    ∃ (neg : Bool) (ds : List Char) (c : Char), ds ≠ [] ∧ (∀ d ∈ ds, isDecDigit d = true) ∧
      isDecDigit c = true ∧ t.toList = (if neg then ['-'] else []) ++ ds ++ ['(', '$', c, ')'] := by
  by_cases hminus : ∃ cs, t.toList = '-' :: cs
  · obtain ⟨cs, ht⟩ := hminus
    rw [addrToken_minus ht] at h
    obtain ⟨ds, c, hds, hdigits, hc, rfl⟩ := addrTail_ne_noMatch h
    exact ⟨true, ds, c, hds, hdigits, hc, ht⟩
  · rw [addrToken_no_minus fun hh => hminus (List.head?_eq_some_iff.mp hh)] at h
    obtain ⟨ds, c, hds, hdigits, hc, ht⟩ := addrTail_ne_noMatch h
    exact ⟨false, ds, c, hds, hdigits, hc, ht⟩

end

/-- R65: a digit more is ten times the value and the digit. -/
theorem decimalValue_append_digit (ds : List Char) (d : Char) :
    decimalValue (ds ++ [d]) = decimalValue ds * 10 + digitValue d := by
  rw [decimalValue, List.foldl_append]
  rfl

theorem addrToken_wf (t : String) : (addrToken t).wf = true := by
  by_cases h : addrToken t = .noMatch
  · rw [h]
    rfl
  · obtain ⟨neg, ds, c, hds, hdigits, hc, ht⟩ := addrToken_ne_noMatch h
    rw [addrToken_shape hds hdigits hc ht]
    exact decide_eq_true (digitValue_le hc)

/-- Settles O11: both directions of the shape, and the value of digits by their number. -/
theorem addressTokenShape : Obligations.AddressTokenShape := by
  refine ⟨fun neg ds c t hds hdigits h0 h9 ht => ?_, fun t h => ?_, rfl, decimalValue_append_digit,
    fun _ => rfl⟩
  · exact addrToken_shape hds (fun d hd => isDecDigit_eq_true.mpr (hdigits d hd))
      (isDecDigit_eq_true.mpr ⟨h0, h9⟩) ht
  · obtain ⟨neg, ds, c, hds, hdigits, hc, ht⟩ := addrToken_ne_noMatch h
    obtain ⟨h0, h9⟩ := isDecDigit_eq_true.mp hc
    exact ⟨neg, ds, c, hds, fun d hd => isDecDigit_eq_true.mp (hdigits d hd), h0, h9, ht⟩

/-! ### Branch targets (R67, R68) -/

section
variable {labels : LabelTable} {t : String}

theorem bzToken_of_some {k : Nat} (h : labelLookup labels t = some k) :
    bzToken labels t = .known k := by simp only [bzToken, h]

theorem bzToken_of_none (h : labelLookup labels t = none) :
    bzToken labels t = .undefined t := by simp only [bzToken, h]

theorem balToken_of_some {k : Nat} (h : labelLookup labels t = some k) :
    balToken labels t = .known k := by simp only [balToken, h]

theorem balToken_of_none (h : labelLookup labels t = none) :
    balToken labels t = .addr (addrToken t) := by simp only [balToken, h]

/-- Settles O12: what the label table answers decides. -/
theorem branchTokenResolution : Obligations.BranchTokenResolution := fun _ _ =>
  ⟨fun _ h => ⟨bzToken_of_some h, balToken_of_some h⟩,
    fun h => ⟨bzToken_of_none h, balToken_of_none h⟩⟩

theorem balToken_wf (labels : LabelTable) (t : String) : (balToken labels t).wf = true := by
  cases h : labelLookup labels t with
  | some k =>
    rw [balToken_of_some h]
    exact decide_eq_true (Int.natCast_nonneg k)
  | none =>
    rw [balToken_of_none h]
    exact addrToken_wf t

end

/-! ### Records (R62, R69, R71) -/

section
variable {labels : LabelTable} {op : Opcode} {ops : List String} {r : InstrRecord}

/-- R69: too few operands give `SHORT`. -/
theorem decodeOperands_of_lt (h : ops.length < requiredOperands op) :
    decodeOperands labels op ops = .short op ops.length := by
  cases op with
  | lda | ld | st | bz | bal =>
    match ops, h with
    | [], _ | [_], _ => rfl
  | add | slt =>
    match ops, h with
    | [], _ | [_], _ | [_, _], _ => rfl
  | hlt => exact absurd h (Nat.not_lt_zero _)

/-- R71: enough operands give an instruction, whatever operands follow. -/
theorem decodeOperands_of_le (h : requiredOperands op ≤ ops.length) :
    ∃ i, i.wf = true ∧ ∀ extra, decodeOperands labels op (ops ++ extra) = .instr i := by
  cases op with
  | lda | ld | st | bz | bal =>
    match ops, h with
    | _ :: _ :: _, _ =>
      exact ⟨_, by simp [Instr.wf, regToken_wf, addrToken_wf, balToken_wf], fun _ => rfl⟩
  | add | slt =>
    match ops, h with
    | _ :: _ :: _ :: _, _ => exact ⟨_, by simp [Instr.wf, regToken_wf], fun _ => rfl⟩
  | hlt => exact ⟨_, rfl, fun _ => rfl⟩

theorem decodeOperands_eq_short {op' : Opcode} {n : Nat} :
    decodeOperands labels op ops = .short op' n ↔
      op = op' ∧ ops.length = n ∧ n < requiredOperands op := by
  rcases Nat.lt_or_ge ops.length (requiredOperands op) with hlt | hle
  · rw [decodeOperands_of_lt hlt, Decoded.short.injEq]
    exact and_congr_right fun _ => ⟨fun hn => ⟨hn, hn ▸ hlt⟩, And.left⟩
  · obtain ⟨i, -, hi⟩ := decodeOperands_of_le (labels := labels) hle
    rw [← List.append_nil ops, hi []]
    simp only [reduceCtorEq, List.append_nil, false_iff]
    rintro ⟨-, rfl, hlt⟩
    exact absurd hlt (Nat.not_lt.mpr hle)

theorem decodeOperands_append (h : requiredOperands op ≤ ops.length) (extra : List String) :
    decodeOperands labels op (ops ++ extra) = decodeOperands labels op ops := by
  obtain ⟨i, -, hi⟩ := decodeOperands_of_le (labels := labels) h
  rw [hi, ← List.append_nil ops, hi]

theorem decodeOperands_wf {i : Instr} (h : decodeOperands labels op ops = .instr i) :
    i.wf = true := by
  rcases Nat.lt_or_ge ops.length (requiredOperands op) with hlt | hle
  · cases (decodeOperands_of_lt hlt).symm.trans h
  · obtain ⟨j, hwf, hj⟩ := decodeOperands_of_le (labels := labels) hle
    rw [← List.append_nil ops, hj] at h
    cases h
    exact hwf

theorem decodeRecord_of_some (h : opcodeOf r.opcode = some op) :
    decodeRecord labels r = decodeOperands labels op r.operands := by
  simp only [decodeRecord, h]

theorem decodeRecord_of_none (h : opcodeOf r.opcode = none) :
    decodeRecord labels r = .instr (.unrecognized (.name r.opcode)) := by
  simp only [decodeRecord, h]

theorem decodeRecord_of_lt (hop : opcodeOf r.opcode = some op)
    (h : r.operands.length < requiredOperands op) :
    decodeRecord labels r = .short op r.operands.length :=
  (decodeRecord_of_some hop).trans (decodeOperands_of_lt h)

theorem decodeRecord_eq_short {n : Nat} : decodeRecord labels r = .short op n ↔
    opcodeOf r.opcode = some op ∧ r.operands.length = n ∧ n < requiredOperands op := by
  cases hop : opcodeOf r.opcode with
  | none =>
    rw [decodeRecord_of_none hop]
    exact ⟨nofun, nofun⟩
  | some op' =>
    rw [decodeRecord_of_some hop, decodeOperands_eq_short, Option.some.injEq]
    exact and_congr_right fun h => h ▸ Iff.rfl

theorem decodeRecord_append
    (h : ∀ op, opcodeOf r.opcode = some op → requiredOperands op ≤ r.operands.length)
    (extra : List String) :
    decodeRecord labels { r with operands := r.operands ++ extra } = decodeRecord labels r := by
  cases hop : opcodeOf r.opcode with
  | none =>
    rw [decodeRecord_of_none hop]
    exact decodeRecord_of_none hop
  | some op =>
    rw [decodeRecord_of_some hop, ← decodeOperands_append (h op hop) extra]
    exact decodeRecord_of_some hop

theorem decodeRecord_wf {i : Instr} (h : decodeRecord labels r = .instr i) : i.wf = true := by
  cases hop : opcodeOf r.opcode with
  | none =>
    cases (decodeRecord_of_none hop).symm.trans h
    exact decide_eq_true ((opcodeOf_eq_none_iff _).mp hop)
  | some op => exact decodeOperands_wf ((decodeRecord_of_some hop).symm.trans h)

end

/-- Settles O13: the operands are read by position, and the count and the opcode decide the rest. -/
theorem recordDecoding : Obligations.RecordDecoding := by
  refine fun labels raw o0 o1 o2 rest =>
    ⟨rfl, rfl, rfl, rfl, rfl, rfl, rfl, rfl, fun e he hlt => ?_, fun op hop => ?_⟩
  · simp only [List.mem_cons, List.not_mem_nil, or_false] at he
    rcases he with rfl | rfl | rfl | rfl | rfl | rfl | rfl <;> exact decodeRecord_of_lt rfl hlt
  · exact decodeRecord_of_none ((opcodeOf_eq_none_iff op).mpr hop)

/-- Settles O9: a word's instruction has a binary form, and a record's operands are digits or rejected. -/
theorem decodersGiveWellFormedInstructions : Obligations.DecodersGiveWellFormedInstructions :=
  ⟨fun w => ⟨Instr.wf_of_encodable (encodable_decodeWord w), encodable_decodeWord w,
    binaryForm_decodeWord w⟩, fun _ _ _ h => decodeRecord_wf h⟩

/-- Settles O14: the count against R62 decides, and executing `SHORT` latches its fault alone. -/
theorem tooFewOperandsFault : Obligations.TooFewOperandsFault :=
  ⟨fun _ _ _ _ => decodeRecord_eq_short, fun _ _ extra h => decodeRecord_append h extra,
    fun _ _ _ _ => nofun,
    fun op _ s => ⟨s.latchFault (.operandArityFailure op), rfl, rfl, fun _ => rfl, fun _ => rfl, rfl,
      rfl, rfl, rfl, rfl⟩⟩

end Sys2Proof
end

section
/-! The encoding family, fourth part: the parser of the source form. The label table (R88), what a line
emits and binds (R83 to R86), the lines of tokens (R85), and `load` (R181, R213). -/

namespace Sys2Proof

/-! ### The label table (R88) -/

section
variable (t : LabelTable) {name other : String} (k : Nat)

@[simp] theorem labelLookup_labelInsert_same : labelLookup (labelInsert t name k) name = some k := by
  rw [labelInsert, labelLookup_append, labelLookup_filter, if_pos rfl]
  exact if_pos rfl

theorem labelLookup_labelInsert_other (h : other ≠ name) :
    labelLookup (labelInsert t name k) other = labelLookup t other := by
  rw [labelInsert, labelLookup_append, labelLookup_filter, if_neg h]
  cases labelLookup t other with
  | some j => rfl
  | none => exact if_neg h.symm

theorem labelInsert_names :
    (labelInsert t name k).map Prod.fst = (t.map Prod.fst).filter (· ≠ name) ++ [name] := by
  rw [labelInsert, List.map_append, List.filter_map]
  rfl

theorem labelInsert_names_nodup (h : (t.map Prod.fst).Nodup) :
    ((labelInsert t name k).map Prod.fst).Nodup := by
  rw [labelInsert_names, ← List.concat_eq_append, List.nodup_concat]
  exact ⟨by simp, h.filter _⟩

end

/-- Settles O18: a definition removes the name's entry and adds its own. -/
theorem lastLabelDefinitionWins : Obligations.LastLabelDefinitionWins := fun t _ k =>
  ⟨labelLookup_labelInsert_same t k, fun _ h => labelLookup_labelInsert_other t k h,
    labelInsert_names_nodup t k⟩

namespace Machine

section
variable {p : Program} {line cs rest name : List Char} {c : Char}

/-! ### Comments and surrounding white space (R83) -/

/-- The test by which `stripComment` and `splitLabel` keep a character. -/
theorem decide_ne_of_not_mem (h : c ∉ cs) : ∀ d ∈ cs, decide (d ≠ c) = true :=
  fun _ hd => decide_eq_true fun he => h (he ▸ hd)

theorem stripComment_of_not_mem (h : ';' ∉ line) : stripComment line = line :=
  List.takeWhile_eq_self_iff.mpr (decide_ne_of_not_mem h)

theorem stripComment_append (h : ';' ∉ line) (comment : List Char) :
    stripComment (line ++ ';' :: comment) = line := by
  rw [stripComment, List.takeWhile_append_of_pos (decide_ne_of_not_mem h),
    List.takeWhile_cons_of_neg (by simp), List.append_nil]

theorem strip_of_blank (h : ∀ c ∈ cs, isSpace c = true) : strip cs = [] := by
  rw [strip, List.dropWhile_eq_nil_iff.mpr h]
  rfl

/-- A text that neither begins nor ends in white space. -/
def Trimmed (cs : List Char) : Prop :=
  (∀ c ∈ cs.head?, isSpace c = false) ∧ ∀ c ∈ cs.getLast?, isSpace c = false

theorem dropWhile_isSpace_of_head (h : ∀ c ∈ cs.head?, isSpace c = false) :
    cs.dropWhile isSpace = cs := by
  cases cs with
  | nil => rfl
  | cons c cs => exact List.dropWhile_cons_of_neg (by simp [h c rfl])

theorem Trimmed.strip_eq (h : Trimmed cs) : strip cs = cs := by
  rw [strip, dropWhile_isSpace_of_head h.1,
    dropWhile_isSpace_of_head (by rw [List.head?_reverse]; exact h.2), List.reverse_reverse]

/-! ### What a line gives, by its text (R84) -/

theorem splitLabel_of_not_mem (h : ':' ∉ cs) : splitLabel cs = none := if_neg h

theorem splitLabel_append (h : ':' ∉ name) (rest : List Char) :
    splitLabel (name ++ ':' :: rest) = some (name, rest) := by
  have hname := decide_ne_of_not_mem h
  rw [splitLabel, if_pos (by simp), List.takeWhile_append_of_pos hname,
    List.dropWhile_append_of_pos hname, List.takeWhile_cons_of_neg (by simp),
    List.dropWhile_cons_of_neg (by simp), List.append_nil, List.tail_cons]

theorem parseLine_of_blank (p : Program) (h : strip (stripComment line) = []) :
    parseLine p line = p := by
  rw [parseLine, h]
  rfl

theorem parseLine_of_splitLabel_none (p : Program) (hne : strip (stripComment line) ≠ [])
    (h : splitLabel (strip (stripComment line)) = none) :
    parseLine p line = emit (strip (stripComment line)) p := by
  simp only [parseLine, h, List.isEmpty_iff, hne, if_false]

theorem parseLine_of_splitLabel_some (p : Program)
    (h : splitLabel (strip (stripComment line)) = some (name, rest)) :
    parseLine p line = emit (strip rest) (defineLabel (labelName name) p) := by
  have hne : strip (stripComment line) ≠ [] := by
    intro he
    rw [he] at h
    cases h
  simp only [parseLine, h, List.isEmpty_iff, hne, if_false]

/-- Everything a line can do: nothing, emit, or define a label and emit. -/
theorem parseLine_cases (p : Program) (line : List Char) :
    parseLine p line = p ∨ (∃ rest, parseLine p line = emit rest p) ∨
    ∃ name rest, parseLine p line = emit rest (defineLabel name p) := by
  by_cases hne : strip (stripComment line) = []
  · exact .inl (parseLine_of_blank p hne)
  · cases h : splitLabel (strip (stripComment line)) with
    | none => exact .inr (.inl ⟨_, parseLine_of_splitLabel_none p hne h⟩)
    | some e => exact .inr (.inr ⟨_, _, parseLine_of_splitLabel_some p h⟩)

/-- Settles O15: the comment is cut off before the line is read, and white space leaves no text. -/
theorem commentsAndBlankLinesChangeNothing : Obligations.CommentsAndBlankLinesChangeNothing := by
  refine ⟨fun p line comment h => ?_, fun p line h => parseLine_of_blank p (strip_of_blank ?_)⟩
  · rw [parseLine, parseLine, stripComment_append h, stripComment_of_not_mem h]
  · exact fun c hc => h c ((List.takeWhile_prefix _).subset hc)

/-! ### What emission and a definition change (R84 to R86) -/

@[simp] theorem emit_labels (rest : List Char) (p : Program) : (emit rest p).labels = p.labels := by
  unfold emit
  split <;> rfl

theorem emit_records (rest : List Char) (p : Program) :
    (emit rest p).records = p.records ∨ ∃ r, (emit rest p).records = p.records ++ [r] := by
  unfold emit
  split
  · exact .inl rfl
  · exact .inr ⟨_, rfl⟩

theorem records_length_le_emit (rest : List Char) (p : Program) :
    p.records.length ≤ (emit rest p).records.length := by
  rcases emit_records rest p with h | ⟨r, h⟩ <;> simp [h]

@[simp] theorem defineLabel_records (n : String) (p : Program) :
    (defineLabel n p).records = p.records := rfl

@[simp] theorem defineLabel_labels (n : String) (p : Program) :
    (defineLabel n p).labels = labelInsert p.labels n p.records.length := rfl

/-- Settles O16, by the three things a line can do. -/
theorem lineEmitsAtMostOneRecordAndOneLabel : Obligations.LineEmitsAtMostOneRecordAndOneLabel := by
  intro p line
  rcases parseLine_cases p line with h | ⟨rest, h⟩ | ⟨name, rest, h⟩
  · rw [h]
    exact ⟨.inl rfl, .inl rfl⟩
  · rw [h]
    exact ⟨emit_records rest p, .inl (emit_labels rest p)⟩
  · rw [h]
    exact ⟨emit_records rest (defineLabel name p), .inr ⟨name, emit_labels rest _⟩⟩

/-! ### Labels stay within the program (R67, R88, R90) -/

/-- The names of the label table are distinct, and each is bound to an index not above the count of
records. -/
def LabelsWithin (p : Program) : Prop :=
  (p.labels.map Prod.fst).Nodup ∧ ∀ name k, labelLookup p.labels name = some k → k ≤ p.records.length

theorem LabelsWithin.emit (h : LabelsWithin p) (rest : List Char) : LabelsWithin (emit rest p) := by
  rw [LabelsWithin, emit_labels]
  exact ⟨h.1, fun name k hk => (h.2 name k hk).trans (records_length_le_emit rest p)⟩

theorem LabelsWithin.defineLabel (h : LabelsWithin p) (n : String) :
    LabelsWithin (defineLabel n p) := by
  refine ⟨labelInsert_names_nodup p.labels _ h.1, fun name k hk => ?_⟩
  rw [defineLabel_labels] at hk
  by_cases hn : name = n
  · subst hn
    rw [labelLookup_labelInsert_same, Option.some.injEq] at hk
    exact hk.symm.le
  · rw [labelLookup_labelInsert_other _ _ hn] at hk
    exact h.2 name k hk

theorem LabelsWithin.parseLine (h : LabelsWithin p) (line : List Char) :
    LabelsWithin (parseLine p line) := by
  rcases parseLine_cases p line with hp | ⟨rest, hp⟩ | ⟨name, rest, hp⟩ <;> rw [hp]
  · exact h
  · exact h.emit rest
  · exact (h.defineLabel name).emit rest

theorem LabelsWithin.foldl (lines : List (List Char)) (h : LabelsWithin p) :
    LabelsWithin (lines.foldl Machine.parseLine p) := by
  induction lines generalizing p with
  | nil => exact h
  | cons line lines ih => exact ih (h.parseLine line)

/-- Settles O19: the empty program has no label, and every line keeps its labels within it. -/
theorem parsedLabelsStayWithinProgram : Obligations.ParsedLabelsStayWithinProgram := fun text =>
  LabelsWithin.foldl (splitLines text.toList) ⟨.nil, nofun⟩

/-! ### Tokens (R85) -/

section
variable {acc t sep : List Char}

theorem tokensFrom_append_token (h : ∀ c ∈ t, isSeparator c = false) (acc rest : List Char) :
    tokensFrom acc (t ++ rest) = tokensFrom (t.reverse ++ acc) rest := by
  induction t generalizing acc with
  | nil => rfl
  | cons c t ih =>
    have hc : isSeparator c = false := h c List.mem_cons_self
    rw [List.cons_append, tokensFrom, hc, List.reverse_cons, List.append_assoc]
    exact ih (fun d hd => h d (List.mem_cons_of_mem c hd)) (c :: acc)

theorem tokensFrom_nil_append_gap (h : ∀ c ∈ sep, isSeparator c = true) (rest : List Char) :
    tokensFrom [] (sep ++ rest) = tokensFrom [] rest := by
  induction sep with
  | nil => rfl
  | cons c sep ih =>
    have hc : isSeparator c = true := h c List.mem_cons_self
    rw [List.cons_append, tokensFrom, hc]
    exact ih fun d hd => h d (List.mem_cons_of_mem c hd)

/-- A run of separators ends the token being read. -/
theorem tokensFrom_append_gap (hacc : acc ≠ []) (hsep : sep ≠ [])
    (h : ∀ c ∈ sep, isSeparator c = true) (rest : List Char) :
    tokensFrom acc (sep ++ rest) = acc.reverse :: tokens rest := by
  obtain ⟨c, sep, rfl⟩ := List.exists_cons_of_ne_nil hsep
  have hc : isSeparator c = true := h c List.mem_cons_self
  have hskip := tokensFrom_nil_append_gap (fun d hd => h d (List.mem_cons_of_mem c hd)) rest
  simp only [List.cons_append, tokensFrom, hc, if_true, List.isEmpty_iff, hacc, if_false, hskip, tokens]

end

/-! ### Lines of tokens (R84 to R86) -/

/-- A line of tokens: the opcode, and each operand after its run of separators. -/
def tokenLine (op : List Char) (operands : List (List Char × List Char)) : List Char :=
  op ++ operands.flatMap fun e => e.1 ++ e.2

/-- The characters of a token, which neither end it nor stand for a comment or a label. -/
def IsToken (t : List Char) : Prop :=
  t ≠ [] ∧ ∀ c ∈ t, c ≠ ';' ∧ c ≠ ':' ∧ isSeparator c = false

/-- A run of separators. -/
def IsGap (sep : List Char) : Prop := sep ≠ [] ∧ ∀ c ∈ sep, isSeparator c = true

/-- What R85 asks of a line: tokens, separated by runs of separators. -/
structure Separated (op : List Char) (operands : List (List Char × List Char)) : Prop where
  tokens : ∀ t ∈ op :: operands.map Prod.snd, IsToken t
  gaps : ∀ sep ∈ operands.map Prod.fst, IsGap sep

section
variable {t sep op : List Char} {operands es : List (List Char × List Char)}
  {e : List Char × List Char}

theorem IsToken.isSeparator_eq (h : IsToken t) : ∀ c ∈ t, isSeparator c = false :=
  fun c hc => (h.2 c hc).2.2

theorem isSpace_of_not_isSeparator (h : isSeparator c = false) : isSpace c = false :=
  (Bool.or_eq_false_iff.mp h).2

theorem IsToken.isSpace_eq (h : IsToken t) : ∀ c ∈ t, isSpace c = false :=
  fun c hc => isSpace_of_not_isSeparator (h.isSeparator_eq c hc)

theorem IsToken.no_marks (h : IsToken t) : ∀ c ∈ t, c ≠ ';' ∧ c ≠ ':' := fun c hc =>
  ⟨(h.2 c hc).1, (h.2 c hc).2.1⟩

theorem IsGap.no_marks (h : IsGap sep) : ∀ c ∈ sep, c ≠ ';' ∧ c ≠ ':' := fun c hc =>
  ⟨by rintro rfl; exact absurd (h.2 _ hc) (by decide),
    by rintro rfl; exact absurd (h.2 _ hc) (by decide)⟩

theorem Separated.head (h : Separated op operands) : IsToken op := h.tokens op List.mem_cons_self

theorem Separated.gap (h : Separated op (e :: es)) : IsGap e.1 := h.gaps e.1 List.mem_cons_self

theorem Separated.tail (h : Separated op (e :: es)) : Separated e.2 es :=
  ⟨fun t ht => h.tokens t (List.mem_cons_of_mem op ht),
    fun sep hs => h.gaps sep (List.mem_cons_of_mem e.1 hs)⟩

theorem tokenLine_nil (op : List Char) : tokenLine op [] = op := List.append_nil op

theorem tokenLine_cons (op : List Char) (e : List Char × List Char)
    (es : List (List Char × List Char)) :
    tokenLine op (e :: es) = op ++ (e.1 ++ tokenLine e.2 es) := by
  simp only [tokenLine, List.flatMap_cons, List.append_assoc]

theorem Separated.tokenLine_ne_nil (h : Separated op operands) : tokenLine op operands ≠ [] :=
  List.append_ne_nil_of_left_ne_nil h.head.1 _

/-- R85: splitting a line of tokens gives its tokens. -/
theorem Separated.tokens_tokenLine (h : Separated op operands) :
    Machine.tokens (tokenLine op operands) = op :: operands.map Prod.snd := by
  have hop := h.head
  have hrev : op.reverse ≠ [] := List.reverse_ne_nil_iff.mpr hop.1
  induction operands generalizing op with
  | nil =>
    have htok := tokensFrom_append_token hop.isSeparator_eq [] []
    rw [List.append_nil, List.append_nil] at htok
    rw [tokenLine_nil, Machine.tokens, htok, tokensFrom, List.reverse_reverse]
    exact if_neg (by rwa [List.isEmpty_iff])
  | cons e es ih =>
    rw [tokenLine_cons, Machine.tokens, tokensFrom_append_token hop.isSeparator_eq, List.append_nil,
      tokensFrom_append_gap hrev h.gap.1 h.gap.2, List.reverse_reverse,
      ih h.tail h.tail.head (List.reverse_ne_nil_iff.mpr h.tail.head.1)]
    rfl

/-- A line of tokens holds no comment and no label. -/
theorem Separated.no_marks (h : Separated op operands) :
    ∀ c ∈ tokenLine op operands, c ≠ ';' ∧ c ≠ ':' := by
  induction operands generalizing op with
  | nil =>
    rw [tokenLine_nil]
    exact h.head.no_marks
  | cons e es ih =>
    intro c hc
    rw [tokenLine_cons, List.mem_append, List.mem_append] at hc
    rcases hc with hc | hc | hc
    · exact h.head.no_marks c hc
    · exact h.gap.no_marks c hc
    · exact ih h.tail c hc

theorem Separated.not_isSpace_head (h : Separated op operands) :
    ∀ c ∈ (tokenLine op operands).head?, isSpace c = false := by
  intro c hc
  rw [tokenLine, List.head?_append_of_ne_nil _ h.head.1] at hc
  exact h.head.isSpace_eq c (List.mem_of_mem_head? hc)

theorem Separated.not_isSpace_getLast (h : Separated op operands) :
    ∀ c ∈ (tokenLine op operands).getLast?, isSpace c = false := by
  induction operands generalizing op with
  | nil =>
    rw [tokenLine_nil]
    exact fun c hc => h.head.isSpace_eq c (List.mem_of_getLast? hc)
  | cons e es ih =>
    rw [tokenLine_cons, ← List.append_assoc,
      List.getLast?_append_of_ne_nil _ h.tail.tokenLine_ne_nil]
    exact ih h.tail

theorem Separated.trimmed (h : Separated op operands) : Trimmed (tokenLine op operands) :=
  ⟨h.not_isSpace_head, h.not_isSpace_getLast⟩

/-! ### A label before a line (R84) -/

theorem labelName_of_no_space (h : ∀ c ∈ name, isSpace c = false) :
    labelName name = String.ofList name := by
  have hany : name.any isSpace = false := List.any_eq_false.mpr fun c hc => by simp [h c hc]
  rw [labelName, hany]
  rfl

/-- A name and its colon before a text leave no white space around the whole. -/
theorem trimmed_label (hname : ∀ c ∈ name, isSpace c = false)
    (hrest : ∀ c ∈ rest.getLast?, isSpace c = false) : Trimmed (name ++ ':' :: rest) := by
  refine ⟨fun c hc => ?_, fun c hc => ?_⟩
  · cases name with
    | nil => cases hc; decide
    | cons d name => cases hc; exact hname _ List.mem_cons_self
  · rw [List.getLast?_append_of_ne_nil _ (List.cons_ne_nil _ _)] at hc
    cases rest with
    | nil => cases hc; decide
    | cons d rest => exact hrest c hc

/-- R84: a line with a label defines the label, and then emits what follows the colon. -/
theorem parseLine_label (p : Program) (hname : ∀ c ∈ name, c ≠ ';' ∧ c ≠ ':' ∧ isSpace c = false)
    (hcomment : ';' ∉ rest) (hlast : ∀ c ∈ rest.getLast?, isSpace c = false) :
    parseLine p (name ++ ':' :: rest) =
      emit (strip rest) (defineLabel (String.ofList name) p) := by
  have hspace : ∀ c ∈ name, isSpace c = false := fun c hc => (hname c hc).2.2
  have hno : ';' ∉ name ++ ':' :: rest := by
    rw [List.mem_append, List.mem_cons]
    rintro (hc | hc | hc)
    · exact (hname _ hc).1 rfl
    · cases hc
    · exact hcomment hc
  have htext : strip (stripComment (name ++ ':' :: rest)) = name ++ ':' :: rest := by
    rw [stripComment_of_not_mem hno, (trimmed_label hspace hlast).strip_eq]
  rw [← labelName_of_no_space hspace]
  refine parseLine_of_splitLabel_some p ?_
  rw [htext]
  exact splitLabel_append (fun hc => (hname _ hc).2.1 rfl) rest

theorem Separated.strip_stripComment (h : Separated op operands) :
    strip (stripComment (tokenLine op operands)) = tokenLine op operands := by
  rw [stripComment_of_not_mem fun hc => (h.no_marks _ hc).1 rfl, h.trimmed.strip_eq]

/-- R84: a line of tokens without a label is emitted. -/
theorem Separated.parseLine_eq (h : Separated op operands) (p : Program) :
    parseLine p (tokenLine op operands) = emit (tokenLine op operands) p := by
  have hsplit : splitLabel (tokenLine op operands) = none :=
    splitLabel_of_not_mem fun hc => (h.no_marks _ hc).2 rfl
  have hp := parseLine_of_splitLabel_none (line := tokenLine op operands) p
  rw [h.strip_stripComment] at hp
  exact hp h.tokenLine_ne_nil hsplit

/-- R85, R86: the record of a line of tokens. -/
theorem Separated.emit_eq (h : Separated op operands) (p : Program) :
    emit (tokenLine op operands) p =
      { p with
        records := p.records ++
          [{ opcode := String.ofList (op.map Char.toUpper)
             operands := operands.map fun e => String.ofList e.2
             raw := String.ofList (tokenLine op operands) }] } := by
  rw [emit, h.tokens_tokenLine]
  simp only [upperCase, List.map_map, Function.comp_def]

end

/-- Settles O17: the line is its own text, its tokens are those it is made of, and a label before it is
defined before the record is emitted. -/
theorem lineGivesItsRecordAndLabel : Obligations.LineGivesItsRecordAndLabel := by
  rintro p op operands name htok hgap hname line rfl r rfl
  have h : Separated op operands := ⟨htok, hgap⟩
  refine ⟨(h.parseLine_eq p).trans (h.emit_eq p), ?_, ?_⟩
  · have hcomment : ';' ∉ tokenLine op operands := fun hc => (h.no_marks _ hc).1 rfl
    have hp := parseLine_label p hname hcomment h.not_isSpace_getLast
    rw [h.trimmed.strip_eq, h.emit_eq] at hp
    exact hp
  · exact parseLine_label p hname List.not_mem_nil nofun

/-! ### Load (R181, R213) -/

/-- Settles O20: `load` replaces two fields, and the empty text parses to the empty program. -/
theorem loadAcceptsEveryText : Obligations.LoadAcceptsEveryText :=
  ⟨fun _ _ => ⟨_, rfl, rfl, rfl, rfl, rfl, rfl, rfl, rfl, rfl⟩, _, rfl, rfl, rfl⟩

end

end Machine

end Sys2Proof
end

section
/-! The step family: an unrecognized opcode (R105), what `step` runs (R101 to R103), what a call of `step()`
returns (R100, R104, R108), and the driving loop (R109, R215). A call is refused, halts, or executes the
instruction it fetched: one equation for each. -/

namespace Sys2Proof.Machine

section
variable {s t u : State} {i : Instr} {si : StoredInstr} {p : Int}

/-! ### An unrecognized opcode (R105) -/

theorem execUnrecognized_of_nop (h : s.unknownOpcode = .nop) (tag : OpTag) :
    execUnrecognized tag s = .next s := by
  rw [execUnrecognized, h]

theorem execUnrecognized_of_fault (h : s.unknownOpcode = .fault) (tag : OpTag) :
    execUnrecognized tag s = raise (.unrecognizedOpcode tag) s := by
  rw [execUnrecognized, h]

/-- R188: an instruction that ends in `raise` before it has changed anything latches its fault alone. -/
theorem raisesFault_of_exec_eq_raise {f : Fault} (h : exec i s = raise f s) : RaisesFault i s f :=
  ⟨s.latchFault f, h, rfl, fun _ => rfl, fun _ => rfl, rfl, rfl, rfl, rfl, rfl⟩

/-! ### What the next step executes (R100, R101, R108) -/

theorem nextStored_of_running (hf : s.fault = none) (hr : s.running = true) (hpc : 0 ≤ s.pc)
    (hi : s.im[s.pc.toNat]? = some si) : s.nextStored = some si :=
  nextStored_some.mpr ⟨hf, hr, (if_pos hpc).trans hi⟩

theorem nextStored_of_latched {r : FaultRecord} (h : s.fault = some r) : s.nextStored = none := by
  rw [State.nextStored, h]

/-- R100: a machine that is not running or whose `pc` is out of bounds executes nothing. -/
theorem nextStored_of_halted (h : s.running = false ∨ ¬ s.pcInBounds) : s.nextStored = none := by
  rw [Option.eq_none_iff_forall_ne_some]
  intro si hn
  obtain ⟨-, hr, hi⟩ := nextStored_some.mp hn
  rcases h with hr' | hb
  · cases hr.symm.trans hr'
  · exact hb (fetch_some hi).1

theorem Executes.fault_eq_none (hi : Executes s i) : s.fault = none := by
  obtain ⟨si, hn, -⟩ := Option.map_eq_some_iff.mp hi
  exact (nextStored_some.mp hn).1

/-! ### What a step answers when it executes nothing -/

theorem step_of_latched {r : FaultRecord} (h : s.fault = some r) :
    step s = .refused (.faultLatched r) := by
  rw [step, h]

theorem step_of_halted (hf : s.fault = none) (h : s.running = false ∨ ¬ s.pcInBounds) :
    step s = .next s.clearRunning := by
  have hn : s.nextStored = none := nextStored_of_halted h
  rcases step_cases s with ⟨r, hr, -⟩ | ⟨-, -, -, hs⟩ | ⟨si, hsi, -⟩
  · cases hf.symm.trans hr
  · exact hs
  · cases hn.symm.trans hsi

/-! ### What a call of `step()` returns (R12, R104) -/

theorem executedResult_of_not_latched (h : t.fault = none) :
    executedResult p si t =
      .trace { pc := p, instructionText := storedText si, registers := t.regSnapshot } := by
  rw [executedResult, h]

theorem executedResult_of_latched {r : FaultRecord} (h : t.fault = some r) :
    executedResult p si t = .fault r (storedText si) := by
  rw [executedResult, h]

theorem executedResult_ne_halted (p : Int) (si : StoredInstr) (t : State) :
    executedResult p si t ≠ .halted := by
  cases h : t.fault with
  | none => rw [executedResult_of_not_latched h]; exact nofun
  | some r => rw [executedResult_of_latched h]; exact nofun

theorem call_of_latched {r : FaultRecord} (h : s.fault = some r) : s.call = (.refused, s) := by
  rw [State.call, nextStored_of_latched h, step_of_latched h, idleResult, h]
  rfl

theorem call_of_halted (hf : s.fault = none) (h : s.running = false ∨ ¬ s.pcInBounds) :
    s.call = (.halted, s.clearRunning) := by
  rw [State.call, nextStored_of_halted h, step_of_halted hf h, idleResult, hf]
  rfl

theorem call_of_step (hn : s.nextStored = some si) (h : step s = .next t) :
    s.call = (executedResult s.pc si t, t) := by
  rw [State.call, hn, h]
  rfl

/-- R104: a call that executes an instruction without a fault gives a trace record. -/
theorem Executes.call_eq_trace (hi : Executes s i) (he : exec i s.advancePc = .next t)
    (ht : t.fault = none) : ∃ r, s.call = (.trace r, t) := by
  obtain ⟨si, hn, -⟩ := Option.map_eq_some_iff.mp hi
  have hcall := call_of_step hn (hi.step_eq.trans he)
  rw [executedResult_of_not_latched ht] at hcall
  exact ⟨_, hcall⟩

/-- Everything a call can do. -/
theorem call_cases (s : State) :
    (s.fault ≠ none ∧ s.call = (.refused, s)) ∨
    (step s = .next s.clearRunning ∧ s.call = (.halted, s.clearRunning)) ∨
    ∃ si t, step s = .next t ∧ s.call = (executedResult s.pc si t, t) := by
  rcases step_cases s with ⟨r, hr, -⟩ | ⟨hf, hb, -, hs⟩ | ⟨si, hn, -, -, -, -, hs⟩
  · exact .inl ⟨by simp [hr], call_of_latched hr⟩
  · exact .inr (.inl ⟨hs, call_of_halted hf hb⟩)
  · obtain ⟨t, ht⟩ := execStored_answers si s
    exact .inr (.inr ⟨si, t, hs.trans ht, call_of_step hn (hs.trans ht)⟩)

/-! ### The end of a run (R215) -/

theorem runEnd_ne_notYet_iff : s.runEnd ≠ .notYet ↔ s.fault ≠ none ∨ s.running = false := by
  unfold State.runEnd
  cases s.fault <;> cases s.running <;> simp

theorem Reaches.trans (h : Reaches s t) (h' : Reaches t u) : Reaches s u := by
  induction h' with
  | refl => exact h
  | step _ hstep ih => exact ih.step hstep

/-- A call leaves a state reached from the one before it, by one step or by none. -/
theorem reaches_call (s : State) : Reaches s s.call.2 := by
  rcases call_cases s with ⟨-, hc⟩ | ⟨hs, hc⟩ | ⟨si, t, hs, hc⟩
  · rw [hc]; exact .refl
  · rw [hc]; exact .step .refl hs
  · rw [hc]; exact .step .refl hs

/-- R109, R215: after a call without a trace record the run has ended. -/
theorem runEnd_of_call_ne_trace (h : ∀ r, s.call.1 ≠ .trace r) : s.call.2.runEnd ≠ .notYet := by
  rw [runEnd_ne_notYet_iff]
  rcases call_cases s with ⟨hf, hc⟩ | ⟨-, hc⟩ | ⟨si, t, -, hc⟩
  · rw [hc]; exact .inl hf
  · rw [hc]; exact .inr rfl
  · rw [hc] at h ⊢
    exact .inl fun ht => h _ (executedResult_of_not_latched ht)

/-! ### The driving loop (R109) -/

theorem drive_succ_of_trace {r : TraceRecord} (n : Nat) (h : s.call.1 = .trace r) :
    drive (n + 1) s = (r :: (drive n s.call.2).1, (drive n s.call.2).2) := by
  rw [drive, ← Prod.eta s.call, h]

theorem drive_succ_of_ne_trace (n : Nat) (h : ∀ r, s.call.1 ≠ .trace r) :
    drive (n + 1) s = ([], s.call.2) := by
  rw [drive]
  split
  case h_1 r t hc => exact absurd (congrArg Prod.fst hc) (h r)
  all_goals next hc => rw [hc]

end

/-- Settles O35: in both readings of the parameter the meaning is one equation, and the decoders give the
instruction for the opcodes that are none of the eight. -/
theorem unrecognizedOpcodeFollowsTheParameter :
    Obligations.UnrecognizedOpcodeFollowsTheParameter := by
  refine ⟨fun tag s => ⟨fun hu => ?_, fun hu => ?_⟩, fun w => decodeWord_reserved,
    fun labels op operands raw hop => ?_, fun s tag hi hu => ?_⟩
  · exact ⟨s, execUnrecognized_of_nop hu tag, rfl, fun _ => rfl, ⟨rfl, rfl⟩, fun _ => rfl,
      SameProgram.refl s⟩
  · exact raisesFault_of_exec_eq_raise (execUnrecognized_of_fault hu tag)
  · exact decodeRecord_of_none ((opcodeOf_eq_none_iff op).mpr hop)
  · have hexec : exec (.unrecognized tag) s.advancePc = .next s.advancePc :=
      execUnrecognized_of_nop (s := s.advancePc) hu tag
    exact hi.call_eq_trace hexec hi.fault_eq_none

/-- Settles O37: a machine that has halted executes nothing, and one that runs in bounds fetches. -/
theorem haltDetection : Obligations.HaltDetection := by
  intro s hf
  refine ⟨fun h => ⟨call_of_halted hf h, step_of_halted hf h, clearRunning_of_not_running⟩,
    fun hr hlo hhi => ?_⟩
  obtain ⟨si, hi⟩ := Option.isSome_iff_exists.mp ((fetch_isSome_iff s).mpr ⟨hlo, hhi⟩)
  have hn : s.nextStored = some si := nextStored_some.mpr ⟨hf, hr, hi⟩
  obtain ⟨t, ht⟩ := execStored_answers si s
  rw [call_of_step hn ((step_of_nextStored hn).trans ht)]
  exact executedResult_ne_halted s.pc si t

/-- Settles O39: what a call returns is read from the state its step leaves. -/
theorem traceRecordContents : Obligations.TraceRecordContents := by
  intro s
  refine ⟨fun si t hn hs ht => ?_, fun si t r hn hs ht => ?_, fun hn r => ?_, fun hi => ?_⟩
  · rw [call_of_step hn hs, executedResult_of_not_latched ht]
    rfl
  · rw [call_of_step hn hs, executedResult_of_latched ht]
  · rw [State.call, hn]
    exact idleResult_ne_trace s r
  · obtain ⟨r, hr⟩ := hi.call_eq_trace (t := s.advancePc.clearRunning) rfl hi.fault_eq_none
    exact ⟨r, congrArg Prod.fst hr⟩

/-- Settles O56, by induction on the number of calls: the loop goes on after a trace record, and a call
without one ends the run. -/
theorem drivingLoopStopsOnlyAtTheEnd : Obligations.DrivingLoopStopsOnlyAtTheEnd := by
  intro n
  induction n with
  | zero => exact fun s => ⟨le_rfl, fun h => absurd h (Nat.lt_irrefl 0), .refl⟩
  | succ n ih =>
    intro s
    by_cases htrace : ∃ r, s.call.1 = .trace r
    · obtain ⟨r, hr⟩ := htrace
      obtain ⟨hlen, hend, hreach⟩ := ih s.call.2
      rw [drive_succ_of_trace n hr]
      exact ⟨Nat.succ_le_succ hlen, fun h => hend (Nat.lt_of_succ_lt_succ h),
        (reaches_call s).trans hreach⟩
    · have hne : ∀ r, s.call.1 ≠ .trace r := not_exists.mp htrace
      rw [drive_succ_of_ne_trace n hne]
      exact ⟨Nat.zero_le _, fun _ => runEnd_of_call_ne_trace hne, reaches_call s⟩

/-- Settles O36: a step is `execDecoded` of what the decoder gives for the fetched instruction. -/
theorem stepRunsTheDecodedInstruction : Obligations.StepRunsTheDecodedInstruction := by
  intro s si hf hr hpc hi
  have hstep : step s = execDecoded (decodeStored s.labels si) s.advancePc :=
    step_of_nextStored (nextStored_of_running hf hr hpc hi)
  refine ⟨fun i hd => ?_, fun op n hd => ?_, ?_⟩
  · rw [hstep, hd]
    rfl
  · rw [hstep, hd]
    rfl
  · rintro w rfl
    exact hstep

/-- Settles O38: the latch is tested before anything else. -/
theorem stepIsRefusedAfterAFault : Obligations.StepIsRefusedAfterAFault :=
  fun _ _ h => ⟨step_of_latched h, call_of_latched h⟩

end Sys2Proof.Machine
end

section
/-! The address, load and store family: the effective address (R120), `LDA`, `LD` and `ST` (R123 to R125),
and that a load gives what the last store to its cell stored (R126). -/

namespace Sys2Proof.Machine

section
variable {s t u : State} {r : RegSel} {a : AddrOp} {j : Fin 4} {v : Int} {f : Fault}

/-! ### The effective address (R64, R120) -/

theorem regIdx_of_le {n : Nat} (h : 4 ≤ n) : regIdx (.idx n) = .error (.registerIndexFailure (.idx n)) :=
  dif_neg (Nat.not_lt.mpr h)

theorem ea_base_of_le (off : Int) {b : Nat} (h : 4 ≤ b) (s : State) :
    ea (.regOff off b) s = .error (.registerIndexFailure (.idx b)) := by
  match b, h with
  | b + 1, h => simp only [ea, regIdx_of_le h]

/-! ### One line of pseudocode (R110) -/

theorem useReg_of_ok (h : regIdx r = .ok j) (k : Fin 4 → Outcome) : useReg r s k = k j := by
  rw [useReg, h, useValue_ok]

theorem useReg_of_error (h : regIdx r = .error f) (k : Fin 4 → Outcome) : useReg r s k = raise f s := by
  rw [useReg, h, useValue_error]

theorem useEa_of_ok (h : ea a s = .ok v) (k : Int → Outcome) : useEa a s k = k v := by
  rw [useEa, h, useValue_ok]

theorem useEa_of_error (h : ea a s = .error f) (k : Int → Outcome) : useEa a s k = raise f s := by
  rw [useEa, h, useValue_error]

/-! ### What `LDA`, `LD` and `ST` answer (R123 to R125) -/

theorem exec_lda_of_ok (hr : regIdx r = .ok j) (ha : ea a s = .ok v) :
    exec (.lda r a) s = .next (s.setReg j (toWord v)) :=
  (useReg_of_ok hr _).trans (useEa_of_ok ha _)

/-- What is left of `LD` after its operands: the read and the lines that use it. -/
theorem exec_ld_of_operands (hr : regIdx r = .ok j) (ha : ea a s = .ok v) :
    exec (.ld r a) s = useValue (memRead s v) s fun w => .next (s.setReg j w) :=
  (useReg_of_ok hr _).trans (useEa_of_ok ha _)

theorem exec_ld_of_ok (hr : regIdx r = .ok j) (ha : ea a s = .ok v) (hv : inDataRange v) :
    exec (.ld r a) s = .next (s.setReg j (s.mem.read v.toNat)) := by
  rw [exec_ld_of_operands hr ha, memRead_of_inDataRange hv, useValue_ok]

/-- What is left of `ST` after its operands: the write. -/
theorem exec_st_of_operands (hr : regIdx r = .ok j) (ha : ea a s = .ok v) :
    exec (.st r a) s = useValue (memWrite s v (s.reg j)) s fun t => .next t :=
  (useReg_of_ok hr _).trans (useEa_of_ok ha _)

theorem exec_st_of_ok (hr : regIdx r = .ok j) (ha : ea a s = .ok v) (hv : inDataRange v) :
    exec (.st r a) s = .next (s.setMem (s.mem.write v.toNat (s.reg j))) := by
  rw [exec_st_of_operands hr ha, memWrite_of_inDataRange hv, useValue_ok]

/-- What a register write leaves, for every instruction that ends in one. -/
theorem setReg_frame (s : State) (j : Fin 4) (w : Word) :
    SameRegsExcept j s (s.setReg j w) ∧ (s.setReg j w).pc = s.pc ∧ SameControl s (s.setReg j w) ∧
      SameMemory s (s.setReg j w) ∧ SameProgram s (s.setReg j w) :=
  ⟨fun k hk => State.setReg_reg_other s j k w hk, rfl, ⟨rfl, rfl⟩, fun _ => rfl, rfl, rfl, rfl⟩

/-! ### Their faults, in the order of their lines (R110, R183, R184) -/

section
variable {i : Instr}

/-- An instruction whose first line is `j := RegIdx(r)`. -/
theorem raisesFault_of_regIdx_error {k : Fin 4 → Outcome} (hexec : exec i s = useReg r s k)
    (hr : regIdx r = .error f) : RaisesFault i s f :=
  raisesFault_of_exec_eq_raise (hexec.trans (useReg_of_error hr k))

/-- An instruction whose second line is `v := EA(a)`. -/
theorem raisesFault_of_ea_error {k : Fin 4 → Int → Outcome}
    (hexec : exec i s = useReg r s fun j => useEa a s (k j)) (hr : regIdx r = .ok j)
    (ha : ea a s = .error f) : RaisesFault i s f :=
  raisesFault_of_exec_eq_raise (hexec.trans ((useReg_of_ok hr _).trans (useEa_of_error ha _)))

end

theorem ld_raisesFault_of_not_inDataRange (hr : regIdx r = .ok j) (ha : ea a s = .ok v)
    (hv : ¬ inDataRange v) : RaisesFault (.ld r a) s (.addressOutOfRangeFailure v) := by
  apply raisesFault_of_exec_eq_raise
  rw [exec_ld_of_operands hr ha, memRead_of_not_inDataRange hv, useValue_error]

theorem st_raisesFault_of_not_inDataRange (hr : regIdx r = .ok j) (ha : ea a s = .ok v)
    (hv : ¬ inDataRange v) : RaisesFault (.st r a) s (.addressOutOfRangeFailure v) := by
  apply raisesFault_of_exec_eq_raise
  rw [exec_st_of_operands hr ha, memWrite_of_not_inDataRange hv, useValue_error]

/-! ### Steps that do not store to a cell (R126) -/

/-- A cell that no step stores to keeps its value, by induction on the steps. -/
theorem QuietSteps.read_eq {b : Nat} (h : QuietSteps (b : Int) s t) : t.mem.read b = s.mem.read b := by
  induction h with
  | refl => rfl
  | @step t u _ hquiet hstep ih =>
    have hkeep : u.mem.read b = t.mem.read b := by
      by_contra hne
      obtain ⟨i, hi, hst⟩ := step_storesTo_of_read_ne hstep hne
      exact hquiet i hi hst
    exact hkeep.trans ih

end

/-! ### The obligations -/

/-- Settles O21: one equation of `ea` per form of the operand and range of its base. -/
theorem effectiveAddressFormula : Obligations.EffectiveAddressFormula := fun s =>
  ⟨ea_noMatch s, fun off => ea_base_zero off s,
    fun off b hb => ea_base off b.val (Fin.val_ne_zero_iff.mpr hb) b.isLt s,
    fun off _ hb => ea_base_of_le off hb s⟩

/-- Settles O24: `LDA` ends in one register write, and each of its lines before that raises its fault. -/
theorem ldaLoadsTheWrappedAddress : Obligations.LdaLoadsTheWrappedAddress := by
  refine ⟨fun d a s => ⟨fun i v hd ha => ?_, fun f hd => raisesFault_of_regIdx_error rfl hd,
      fun i f hd ha => raisesFault_of_ea_error rfl hd ha⟩,
    fun w hw => decodeWord_lda hw, fun labels o0 o1 rest raw => decodeRecord_of_some (op := .lda) rfl⟩
  exact ⟨_, exec_lda_of_ok hd ha, State.setReg_reg_same s i _, setReg_frame s i _⟩

/-- Settles O25: as `LDA`, with the range test of the read before the register write. -/
theorem ldLoadsTheCellOrFaults : Obligations.LdLoadsTheCellOrFaults := by
  refine ⟨fun d a s => ⟨fun i v hd ha hlo hhi => ?_, fun i v hd ha hout => ?_,
      fun f hd => raisesFault_of_regIdx_error rfl hd,
      fun i f hd ha => raisesFault_of_ea_error rfl hd ha⟩,
    fun w hw => decodeWord_ld hw, fun labels o0 o1 rest raw => decodeRecord_of_some (op := .ld) rfl⟩
  · exact ⟨_, exec_ld_of_ok hd ha ⟨hlo, hhi⟩, State.setReg_reg_same s i _, setReg_frame s i _⟩
  · exact ld_raisesFault_of_not_inDataRange hd ha (not_inDataRange_iff.mpr hout)

/-- Settles O26: `ST` ends in one cell's write, after the range test. -/
theorem stStoresTheRegisterOrFaults : Obligations.StStoresTheRegisterOrFaults := by
  refine ⟨fun r a s => ⟨fun i v hr ha hlo hhi => ?_, fun i v hr ha hout => ?_,
      fun f hr => raisesFault_of_regIdx_error rfl hr,
      fun i f hr ha => raisesFault_of_ea_error rfl hr ha⟩,
    fun w hw => decodeWord_st hw, fun labels o0 o1 rest raw => decodeRecord_of_some (op := .st) rfl⟩
  · exact ⟨_, exec_st_of_ok hr ha ⟨hlo, hhi⟩, Memory.read_write_same s.mem _ _,
      sameMemoryExcept_setMem_write s _ _, fun _ => rfl, rfl, ⟨rfl, rfl⟩, ⟨rfl, rfl, rfl⟩⟩
  · exact st_raisesFault_of_not_inDataRange hr ha (not_inDataRange_iff.mpr hout)

/-- Settles O46: the store puts the value in the cell, the steps between keep it, and the load reads it. -/
theorem loadSeesTheLastStore : Obligations.LoadSeesTheLastStore := by
  intro s t u r a i v hr ha hlo hhi hst hquiet d b j hd hb
  cases (exec_st_of_ok hr ha ⟨hlo, hhi⟩).symm.trans hst
  rw [← Int.toNat_of_nonneg hlo] at hquiet
  refine ⟨_, exec_ld_of_ok hd hb ⟨hlo, hhi⟩, ?_⟩
  calc (u.advancePc.setReg j (u.mem.read v.toNat)).reg j
    _ = u.mem.read v.toNat := State.setReg_reg_same _ j _
    _ = (s.mem.write v.toNat (s.reg i)).read v.toNat := hquiet.read_eq
    _ = s.reg i := Memory.read_write_same s.mem _ _

end Sys2Proof.Machine
end

section
/-! The arithmetic family: the laws of the two word operations (R146), and what `ADD` and `SLT` do with
their operands (R140, R141). -/

namespace Sys2Proof

/-! ### Signed readings -/

/-- The signed reading of an integer depends on its word alone. -/
theorem toSigned_congr {u v : Int} (h : toWord u = toWord v) : toSigned u = toSigned v := by
  rw [toSigned, h, toSigned]

/-- The operands of a sum may be replaced by their signed readings. -/
theorem toSigned_toSigned_add (u v : Int) : toSigned (toSigned u + toSigned v) = toSigned (u + v) := by
  have hu : toSigned u % 65536 = u % 65536 := toWord_eq_toWord.mp (toWord_toSigned u)
  have hv : toSigned v % 65536 = v % 65536 := toWord_eq_toWord.mp (toWord_toSigned v)
  exact toSigned_congr (toWord_eq_toWord.mpr (Int.ModEq.add hu hv))

theorem toSigned_eq_self_iff (v : Int) : toSigned v = v ↔ -32768 ≤ v ∧ v ≤ 32767 := by
  rw [toSigned_eq]
  split <;> omega

/-- A value out of the signed range by less than one turn is read one turn off. -/
theorem toSigned_eq_add_or_sub {v : Int} (hlo : -65536 ≤ v) (hhi : v ≤ 65535)
    (hout : ¬ (-32768 ≤ v ∧ v ≤ 32767)) : toSigned v = v + 65536 ∨ toSigned v = v - 65536 := by
  rw [toSigned_eq]
  split <;> omega

/-- R10: a word is determined by its signed reading. -/
theorem toSigned_unsigned_inj {u v : Word} (h : toSigned (unsigned u) = toSigned (unsigned v)) :
    u = v := by
  have hw : toWord (unsigned u) = toWord (unsigned v) := by
    rw [← toWord_toSigned, h, toWord_toSigned]
  simpa using hw

namespace Machine

/-! ### The sum of two words (R140, R146) -/

section
variable (u v : Word)

theorem unsigned_addWord : unsigned (addWord u v) = (unsigned u + unsigned v) % 65536 :=
  unsigned_toWord _

/-- The sum modulo 65536 is the addition of bit vectors, whose laws are the library's. -/
theorem addWord_eq_add : addWord u v = u + v := by
  apply unsigned_inj
  rw [unsigned_addWord, unsigned, unsigned, unsigned, BitVec.toNat_add]
  omega

theorem toWord_sub_unsigned : toWord (65536 - unsigned u) = -u := by
  apply unsigned_inj
  rw [unsigned_toWord, unsigned, unsigned, BitVec.toNat_neg]
  omega

theorem toSigned_addWord : toSigned (unsigned (addWord u v)) =
    toSigned (toSigned (unsigned u) + toSigned (unsigned v)) := by
  rw [unsigned_addWord, toSigned_emod, toSigned_toSigned_add]

/-! ### The signed compare of two words (R141, R146) -/

theorem sltWord_eq_ite :
    sltWord u v = if toSigned (unsigned u) < toSigned (unsigned v) then 1 else 0 := by
  simp only [sltWord, signedLess, decide_eq_true_eq]

theorem sltWord_eq_one_iff : sltWord u v = 1 ↔ toSigned (unsigned u) < toSigned (unsigned v) := by
  rw [sltWord_eq_ite]
  split <;> simp [*]

theorem sltWord_eq_zero_iff : sltWord u v = 0 ↔ toSigned (unsigned v) ≤ toSigned (unsigned u) := by
  rw [sltWord_eq_ite, ← not_lt]
  split <;> simp [*]

end

/-! ### Two source registers and a destination, checked in order (R110, R184) -/

section
variable {s : State} {n : Instr} {d a b : RegSel} {i j k : Fin 4}

section
variable {g : Word → Word → Word}
  (hexec : exec n s = useReg d s fun i => useReg a s fun j => useReg b s fun k =>
    .next (s.setReg i (g (s.reg j) (s.reg k))))
include hexec

theorem exec_of_threeReg_ok (hd : regIdx d = .ok i) (ha : regIdx a = .ok j) (hb : regIdx b = .ok k) :
    exec n s = .next (s.setReg i (g (s.reg j) (s.reg k))) := by
  rw [hexec, useReg_of_ok hd, useReg_of_ok ha, useReg_of_ok hb]

/-- The first invalid register ends the instruction with its fault, before anything has changed. -/
theorem raisesFault_of_threeReg :
    (∀ f, regIdx d = .error f → RaisesFault n s f) ∧
    (∀ i f, regIdx d = .ok i → regIdx a = .error f → RaisesFault n s f) ∧
    ∀ i j f, regIdx d = .ok i → regIdx a = .ok j → regIdx b = .error f → RaisesFault n s f := by
  refine ⟨fun f hd => raisesFault_of_regIdx_error hexec hd,
    fun i f hd ha => raisesFault_of_exec_eq_raise ?_,
    fun i j f hd ha hb => raisesFault_of_exec_eq_raise ?_⟩
  · rw [hexec, useReg_of_ok hd, useReg_of_error ha]
  · rw [hexec, useReg_of_ok hd, useReg_of_ok ha, useReg_of_error hb]

end

theorem exec_add_of_ok (hd : regIdx d = .ok i) (ha : regIdx a = .ok j) (hb : regIdx b = .ok k) :
    exec (.add d a b) s = .next (s.setReg i (addWord (s.reg j) (s.reg k))) :=
  exec_of_threeReg_ok (g := addWord) rfl hd ha hb

theorem exec_slt_of_ok (hd : regIdx d = .ok i) (ha : regIdx a = .ok j) (hb : regIdx b = .ok k) :
    exec (.slt d a b) s = .next (s.setReg i (sltWord (s.reg j) (s.reg k))) :=
  exec_of_threeReg_ok (g := sltWord) rfl hd ha hb

end

/-! ### The obligations -/

/-- Settles O4: `ADD` is bit-vector addition, the signed reading of a sum is that of the sum of the signed
readings, and `SLT` is the order of the integers pulled back along an injective reading. -/
theorem wordArithmeticLaws : Obligations.WordArithmeticLaws := by
  intro u v w
  have hu := toSigned_bounds (unsigned u)
  have hv := toSigned_bounds (unsigned v)
  rw [toSigned_addWord]
  simp only [addWord_eq_add, toWord_sub_unsigned, sltWord_eq_one_iff, sltWord_eq_zero_iff]
  refine ⟨BitVec.add_comm u v, BitVec.add_assoc u v w, BitVec.add_zero u, BitVec.add_right_neg u,
    toSigned_eq_self_iff _, toSigned_eq_add_or_sub (by omega) (by omega), le_rfl, lt_trans,
    fun hne => ?_⟩
  rcases lt_or_gt_of_ne (mt toSigned_unsigned_inj hne) with hlt | hgt
  · exact .inl ⟨hlt, hlt.le⟩
  · exact .inr ⟨hgt.le, hgt⟩

/-- Settles O27: `ADD` ends in one register write, and each of its lines before that raises its fault. -/
theorem addWrapsAndNeverTraps : Obligations.AddWrapsAndNeverTraps := by
  refine ⟨fun d a b s => ⟨fun i j k hd ha hb => ?_, raisesFault_of_threeReg (g := addWord) rfl⟩,
    fun _ => decodeWord_add,
    fun labels o0 o1 o2 rest raw => decodeRecord_of_some (op := .add) rfl⟩
  refine ⟨_, exec_add_of_ok hd ha hb, ?_, setReg_frame s i _⟩
  rw [State.setReg_reg_same, unsigned_addWord]

/-- Settles O28: as `ADD`, with the signed compare in place of the sum. -/
theorem sltComparesSigned : Obligations.SltComparesSigned := by
  refine ⟨fun d a b s => ⟨fun i j k hd ha hb => ?_, raisesFault_of_threeReg (g := sltWord) rfl⟩,
    fun _ => decodeWord_slt,
    fun labels o0 o1 o2 rest raw => decodeRecord_of_some (op := .slt) rfl⟩
  refine ⟨_, exec_slt_of_ok hd ha hb, ?_, setReg_frame s i _⟩
  rw [State.setReg_reg_same, sltWord_eq_ite]

end Machine

end Sys2Proof
end

section
/-! The control transfer family: `BZ` and `BAL` (R161 to R164), call and return (R165), `HLT` (R166), and
targets out of bounds (R167). -/

namespace Sys2Proof.Machine

section
variable {s t : State} {j : Fin 4} {l c : RegSel} {a : AddrOp} {g : BalTgt} {v : Int} {f : Fault}

/-! ### What `BZ` answers (R161) -/

theorem exec_bz_of_zero (hc : regIdx c = .ok j) (hz : s.reg j = 0) (b : BzTgt) :
    exec (.bz c b) s = branchTo b s :=
  (useReg_of_ok hc _).trans (if_pos (decide_eq_true hz))

theorem exec_bz_known_of_zero (hc : regIdx c = .ok j) (hz : s.reg j = 0) (k : Int) :
    exec (.bz c (.known k)) s = .next (s.setPc k) :=
  exec_bz_of_zero hc hz (.known k)

theorem exec_bz_of_ne_zero (hc : regIdx c = .ok j) (hz : s.reg j ≠ 0) (b : BzTgt) :
    exec (.bz c b) s = .next s :=
  (useReg_of_ok hc _).trans (if_neg (mt of_decide_eq_true hz))

/-! ### What `BAL` answers (R162) -/

theorem exec_bal_of_ok (hl : regIdx l = .ok j) (g : BalTgt) :
    exec (.bal l g) s = jumpTo g (s.setReg j (toWord s.pc)) :=
  useReg_of_ok hl _

theorem exec_bal_known_of_ok (hl : regIdx l = .ok j) (k : Int) :
    exec (.bal l (.known k)) s = .next ((s.setReg j (toWord s.pc)).setPc k) :=
  exec_bal_of_ok hl (.known k)

theorem exec_bal_addr_of_ok (hl : regIdx l = .ok j) (ha : ea a (s.setReg j (toWord s.pc)) = .ok v) :
    exec (.bal l (.addr a)) s = .next ((s.setReg j (toWord s.pc)).setPc v) :=
  (exec_bal_of_ok hl (.addr a)).trans (useEa_of_ok ha _)

/-- R162, R188: a bad base faults after the link has been written. -/
theorem exec_bal_addr_of_error (hl : regIdx l = .ok j)
    (ha : ea a (s.setReg j (toWord s.pc)) = .error f) :
    exec (.bal l (.addr a)) s = raise f (s.setReg j (toWord s.pc)) :=
  (exec_bal_of_ok hl (.addr a)).trans (useEa_of_error ha _)

/-- R162: whatever the target does, the link register holds the advanced `pc`. -/
theorem exec_bal_link (hl : regIdx l = .ok j) (h : exec (.bal l g) s = .next t) :
    t.reg j = toWord s.pc := by
  rcases execBal_cases h with ⟨f, hf, -⟩ | ⟨j', hj, ⟨k, -, rfl⟩ | ⟨a, -, ⟨v, -, rfl⟩ | ⟨f, -, rfl⟩⟩⟩
  · cases hl.symm.trans hf
  all_goals
    cases hl.symm.trans hj
    exact State.setReg_reg_same s j _

/-! ### The target of a `BAL` through a register (R120, R164, R165) -/

/-- The effective address with a register of the machine as base always resolves. -/
theorem ea_fin (off : Int) (b : Fin 4) (s : State) :
    ea (.regOff off b.val) s = .ok (if b = 0 then off else off + unsigned (s.reg b)) := by
  by_cases hb : b = 0
  · subst hb
    exact ea_base_zero off s
  · rw [if_neg hb]
    exact ea_base off b.val (Fin.val_ne_zero_iff.mpr hb) b.isLt s

/-- A link holds the whole `pc` it was made of while that fits a word. -/
theorem unsigned_toWord_of_range (hlo : 0 ≤ v) (hhi : v ≤ 65535) : unsigned (toWord v) = v := by
  rw [unsigned_toWord]
  exact Int.emod_eq_of_lt hlo (by omega)

/-! ### A machine that executes an instruction runs -/

theorem Executes.running_eq_true {n : Instr} (hn : Executes s n) : s.running = true := by
  obtain ⟨si, hsi, -⟩ := Option.map_eq_some_iff.mp hn
  exact (nextStored_some.mp hsi).2.1

/-- R28, R167: the instruction that leaves `pc` out of bounds leaves the run flag, unless it is `HLT`. -/
theorem Executes.running_of_ne_hlt {n : Instr} (hn : Executes s n) (hne : n ≠ .hlt)
    (h : step s = .next t) : t.running = true :=
  ((exec_effect (hn.step_eq.symm.trans h)).running_eq.2 hne).trans hn.running_eq_true

end

/-! ### The obligations -/

/-- Settles O29: the test of the register decides, and only a taken branch looks at its target. -/
theorem bzBranchesOnZero : Obligations.BzBranchesOnZero := by
  refine ⟨fun c g s => ⟨?_, fun i hc hz => ?_, ?_, fun f hc => raisesFault_of_regIdx_error rfl hc⟩,
    fun w => decodeWord_bz, fun labels o0 o1 rest raw => decodeRecord_of_some (op := .bz) rfl⟩
  · rintro i k hc hz rfl
    exact ⟨_, exec_bz_known_of_zero hc hz k, rfl, fun _ => rfl, ⟨rfl, rfl⟩, fun _ => rfl, rfl, rfl, rfl⟩
  · exact ⟨s, exec_bz_of_ne_zero hc hz g, rfl, fun _ => rfl, ⟨rfl, rfl⟩, fun _ => rfl, SameProgram.refl s⟩
  · rintro i name hc hz rfl
    exact raisesFault_of_exec_eq_raise (exec_bz_of_zero hc hz _)

/-- Settles O30: the link is one register write, and the jump or its fault comes on top of it. -/
theorem balLinksThenJumps : Obligations.BalLinksThenJumps := by
  refine ⟨fun l g s => ⟨fun i k hl hg => ?_, fun f hl => raisesFault_of_regIdx_error rfl hl, ?_⟩,
    fun w => decodeWord_bal, fun labels o0 o1 rest raw => decodeRecord_of_some (op := .bal) rfl⟩
  · have hexec : exec (.bal l g) s = .next ((s.setReg i (toWord s.pc)).setPc k) := by
      rcases hg with rfl | ⟨a, rfl, ha⟩
      · exact exec_bal_known_of_ok hl k
      · exact exec_bal_addr_of_ok hl ha
    obtain ⟨hregs, -, hcontrol, hmem, hprog⟩ := setReg_frame s i (toWord s.pc)
    exact ⟨_, hexec, State.setReg_reg_same s i _, rfl, hregs, hcontrol, hmem, hprog⟩
  · rintro i a f hl rfl ha
    obtain ⟨hregs, hpc, ⟨hrun, -⟩, hmem, hprog⟩ := setReg_frame s i (toWord s.pc)
    exact ⟨_, exec_bal_addr_of_error hl ha, rfl, State.setReg_reg_same s i _, hregs, hpc, hrun, hmem,
      hprog⟩

/-- Settles O32: the base is read after the link has been written, so it reads as the link. -/
theorem balWithLinkAsBase : Obligations.BalWithLinkAsBase := by
  refine ⟨fun r off s hr => ?_, fun off s => ?_⟩
  · have hea : ea (.regOff off r.val) (s.setReg r (toWord s.pc)) =
        .ok (off + unsigned (toWord s.pc)) := by
      rw [ea_fin, if_neg hr, State.setReg_reg_same]
    refine ⟨_, exec_bal_addr_of_ok (regIdx_fin r) hea, State.setReg_reg_same s r _, rfl, ?_⟩
    rintro rfl hlo hhi
    exact (Int.zero_add _).trans (unsigned_toWord_of_range hlo hhi)
  · exact ⟨_, exec_bal_addr_of_ok (regIdx_fin 0) (ea_base_zero off _), State.setReg_reg_same s 0 _, rfl⟩

/-- Settles O33: the return's own link leaves the register it goes through, which holds the call's link. -/
theorem callAndReturn : Obligations.CallAndReturn := by
  intro l l2 g s t u hne hcall _ hlo hhi hkeep
  have hbase : (u.setReg l2 (toWord u.pc)).reg l = toWord s.pc :=
    calc (u.setReg l2 (toWord u.pc)).reg l
      _ = u.reg l := State.setReg_reg_other u l2 l _ hne.symm
      _ = t.reg l := hkeep
      _ = toWord s.pc := exec_bal_link (regIdx_fin l) hcall
  have hea : ea (.regOff 0 l.val) (u.setReg l2 (toWord u.pc)) = .ok (if l = 0 then 0 else s.pc) := by
    rw [ea_fin, hbase, unsigned_toWord_of_range hlo hhi, Int.zero_add]
  exact ⟨_, exec_bal_addr_of_ok (regIdx_fin l2) hea, rfl, State.setReg_reg_same u l2 _⟩

/-- Settles O34: the step that executes `HLT` traces, and the next finds a machine that has stopped. -/
theorem hltClearsRunning : Obligations.HltClearsRunning := by
  refine ⟨fun s => ⟨s.clearRunning, rfl, rfl, rfl, rfl, fun _ => rfl, fun _ => rfl, rfl, rfl, rfl⟩,
    fun w => decodeWord_hlt, fun labels operands raw => decodeRecord_of_some (op := .hlt) rfl,
    fun s hi => ?_⟩
  have hf : s.advancePc.clearRunning.fault = none := hi.fault_eq_none
  obtain ⟨r, hr⟩ := hi.call_eq_trace rfl hf
  exact ⟨r, s.advancePc.clearRunning, _, hr, rfl, rfl, call_of_halted hf (.inl rfl), rfl⟩

/-- Settles O48: each transfer is one equation with any target, and the call after one that left the
bounds is `Halted`. -/
theorem outOfBoundsTargetEndsTheRun : Obligations.OutOfBoundsTargetEndsTheRun := by
  refine ⟨fun s c k hi hz => ?_, fun s l k hi => ?_, fun s l b off hi => ?_,
    fun s t i hi hne hstep ht hout => ?_⟩
  · exact ⟨_, hi.step_eq.trans (exec_bz_known_of_zero (s := s.advancePc) (regIdx_fin c) hz k),
      hi.fault_eq_none, rfl⟩
  · exact ⟨_, hi.step_eq.trans (exec_bal_known_of_ok (regIdx_fin l) k), hi.fault_eq_none, rfl⟩
  · have hexec := exec_bal_addr_of_ok (s := s.advancePc) (regIdx_fin l) (ea_fin off b _)
    exact ⟨_, hi.step_eq.trans hexec, hi.fault_eq_none, exec_bal_addr_pc hexec hi.fault_eq_none⟩
  · exact ⟨hi.call_eq_trace (hi.step_eq.symm.trans hstep) ht, hi.running_of_ne_hlt hne hstep,
      call_of_halted ht (.inr hout)⟩

/-- Settles O31: the address form is the binary form of `BAL` to a known target. -/
theorem balKnownTargetEqualsAbsoluteAddress : Obligations.BalKnownTargetEqualsAbsoluteAddress :=
  fun l k s => (exec_binaryForm (.bal l (.known k)) s).symm

end Sys2Proof.Machine
end

section
/-! The exceptions family: the state a faulting step leaves (R188). -/

namespace Sys2Proof.Machine

section
variable {s t : State} {i : Instr} {r : FaultRecord}

/-- R188: an instruction that latches a fault writes no cell of memory. -/
theorem Effect.sameMemory_of_latches (h : Effect s i t) (hs : s.fault = none)
    (ht : t.fault = some r) : SameMemory s t := by
  cases h with
  | store => cases hs.symm.trans ht
  | fault | register | branch | notTaken | link | linkFault | halt | nop => exact fun _ => rfl

/-- R188: an instruction that latches a fault leaves the registers, but for a `BAL` whose base names no
register, which has written its link by then (R162). -/
theorem Effect.regs_of_latches (h : Effect s i t) (hs : s.fault = none) (ht : t.fault = some r) :
    SameRegs s t ∨
      ∃ (j : Fin 4) (off : Int) (b : Nat), 4 ≤ b ∧ i = .bal (.idx j.val) (.addr (.regOff off b)) ∧
        r.kind = .registerIndexFailure (.idx b) ∧ t.reg j = toWord s.pc ∧ SameRegsExcept j s t := by
  cases h with
  | fault => exact .inl fun _ => rfl
  | linkFault l off b j hl hb =>
    cases regIdx_ok hl
    cases ht
    exact .inr ⟨j, off, b, hb, rfl, rfl, State.setReg_reg_same s j _,
      fun k hk => State.setReg_reg_other s j k _ hk⟩
  | register | store | branch | notTaken | link | halt | nop => cases hs.symm.trans ht

end

/-- Settles O49: `SHORT` latches its fault alone, and for an instruction the shapes of its effect say
what it leaves. -/
theorem stateAfterAFault : Obligations.StateAfterAFault := by
  intro s t r hs hstep ht
  obtain ⟨hidx, -, hpc, hrun, -⟩ := step_latches hstep ht
  refine ⟨hidx, hpc, hrun, ?_⟩
  obtain ⟨-, ⟨-, -, rfl⟩ | ⟨hr, -, ⟨op, n, -, rfl⟩ | ⟨i, hi, he⟩⟩⟩ := step_next_executes hstep
  · cases hs.symm.trans ht
  · exact ⟨hr, fun _ => rfl, step_sameProgram hstep, .inl fun _ => rfl⟩
  · have heff : Effect s.advancePc i t := exec_effect he
    refine ⟨hr, heff.sameMemory_of_latches hs ht, step_sameProgram hstep, ?_⟩
    rcases heff.regs_of_latches hs ht with hregs | ⟨j, off, b, hb, rfl, hkind, hlink, hregs⟩
    · exact .inl hregs
    · exact .inr ⟨j.val, off, b, hb, hi, hkind, j, rfl, hlink, hregs⟩

end Sys2Proof.Machine
end
